-- ==== Sys2Proof/Word.lean ====
section
/-! DEFINITION. The word types of the block (R5, R7): everything is an unsigned bit vector, bit 0 the least significant. -/

namespace Sys2Proof

/-- Four bits: a selector, a BCD digit, a status code (R7, R41, R47). -/
abbrev Nibble := BitVec 4

/-- Eight bits: a byte of the checksum stream or of the BCD output (R5). -/
abbrev Byte := BitVec 8

/-- Sixteen bits: a checksum word or a time field (R5, R9). -/
abbrev Half := BitVec 16

/-- Thirty-two bits: a command word or the data word of a response (R5, R40, R47). -/
abbrev Word := BitVec 32

end Sys2Proof
end

