-- ==== Sys2Proof/Syntax.lean ====
section
/-! DEFINITION. The eight commands of the block (R43) and the three selector spaces their operands name (R45). -/

namespace Sys2Proof

/-- The time-field space (R45, R80): which `BT_IN[f]` a `BT_SET` writes. -/
inductive TimeField where
  | year | month | day | hour | minute | second | msec
  deriving DecidableEq, Repr

/-- The time-output space (R25, R45): which word of the payload a `BT_RD` reads. -/
inductive PayloadWord where
  | control | outLow | outHigh
  deriving DecidableEq, Repr

/-- The counter space (R17, R45, R85): which counter an `SC_NEXT` advances. -/
inductive CounterId where
  | outer | iena | seqcnt | time | tfc
  deriving DecidableEq, Repr

/-- One command with its operands as they stand in the command word (R42).
A selector is the raw four bits: `Instr.wellFormed` says which values R43 makes legal. -/
inductive Instr where
  /-- `CK_CLR` (R59): start a new buffer. -/
  | ckClr
  /-- `CK_BYTE imm8` (R60): push the next byte of the buffer. -/
  | ckByte (imm8 : Byte)
  /-- `CK_WORD imm16` (R61): push the next two bytes, `imm16[7:0]` first. -/
  | ckWord (imm16 : Half)
  /-- `CK_READ` (R62): return the checksum of the bytes pushed so far. -/
  | ckRead
  /-- `BT_SET sel, imm16` (R75): load one time field. -/
  | btSet (sel : Nibble) (imm16 : Half)
  /-- `BT_ENC` (R76): encode the seven fields into eight BCD bytes. -/
  | btEnc
  /-- `BT_RD sel` (R77): read one word of the time payload. -/
  | btRd (sel : Nibble)
  /-- `SC_NEXT sel` (R88): return counter `sel` and advance it. -/
  | scNext (sel : Nibble)
  deriving DecidableEq, Repr

end Sys2Proof
end

