-- ==== Sys2Proof/WellFormed.lean ====
section
/-! DEFINITION. Which commands are legal: a selector stands in its legal range (R43, last column but one; R44 point 3).
The widths of the other operands are in their types, so nothing else is left to check. -/

namespace Sys2Proof

/-- `BT_SET` selects one of seven fields (R43, R45): 0 .. 6. -/
def timeFieldSelLegal (sel : Nibble) : Bool := sel ≤ 6

/-- `BT_RD` selects one of three payload words (R43, R45): 0 .. 2. -/
def payloadSelLegal (sel : Nibble) : Bool := sel ≤ 2

/-- `SC_NEXT` selects one of five counters (R43, R45): 0 .. 4. -/
def counterSelLegal (sel : Nibble) : Bool := sel ≤ 4

/-- The command is one a legal command word encodes (R43). -/
def Instr.wellFormed : Instr → Bool
  | .ckClr => true
  | .ckByte _ => true
  | .ckWord _ => true
  | .ckRead => true
  | .btSet sel _ => timeFieldSelLegal sel
  | .btEnc => true
  | .btRd sel => payloadSelLegal sel
  | .scNext sel => counterSelLegal sel

end Sys2Proof
end

