-- ==== Sys2Proof/Decode.lean ====
section
/-! DEFINITION. The command word: its fields (R40), decoding (R46, total, each illegal word refused by the name of the
clause of R44 it falls under), and encoding from the bit tables of the formats (R41). -/

namespace Sys2Proof

/-- The three ways a word is illegal (R44). All three give the same response, `E_ILLEGAL`. -/
inductive DecodeError where
  /-- R44 point 1: `OP` is not one of the eight. -/
  | unassignedOpcode
  /-- R44 point 2: a bit the format marks "zero" is 1. -/
  | nonzeroField
  /-- R44 point 3: the selector is outside its legal range. -/
  | selectorOutOfRange
  deriving DecidableEq, Repr

/-- `OP` = `cmd[31:24]` (R40). -/
def opField (cmd : Word) : Byte := cmd.extractLsb' 24 8

/-- `ARG` = `cmd[23:0]` (R40). -/
def argField (cmd : Word) : BitVec 24 := cmd.extractLsb' 0 24

/-- Format Z (R41): no operand, all of `ARG` zero. -/
def decodeZ (arg : BitVec 24) (i : Instr) : Except DecodeError Instr :=
  if arg = 0 then .ok i else .error .nonzeroField

/-- Format B (R41): `ARG[23:8]` zero, `imm8` = `ARG[7:0]`. -/
def decodeB (arg : BitVec 24) (mk : Byte → Instr) : Except DecodeError Instr :=
  if arg.extractLsb' 8 16 = 0 then .ok (mk (arg.extractLsb' 0 8)) else .error .nonzeroField

/-- Format H (R41): `ARG[23:16]` zero, `imm16` = `ARG[15:0]`. -/
def decodeH (arg : BitVec 24) (mk : Half → Instr) : Except DecodeError Instr :=
  if arg.extractLsb' 16 8 = 0 then .ok (mk (arg.extractLsb' 0 16)) else .error .nonzeroField

/-- Format S (R41): `ARG[23:4]` zero, `sel` = `ARG[3:0]`, which must be legal. -/
def decodeS (arg : BitVec 24) (legal : Nibble → Bool) (mk : Nibble → Instr) : Except DecodeError Instr :=
  if arg.extractLsb' 4 20 = 0 then
    if legal (arg.extractLsb' 0 4) then .ok (mk (arg.extractLsb' 0 4)) else .error .selectorOutOfRange
  else .error .nonzeroField

/-- Format F (R41): `ARG[23:20]` zero, `sel` = `ARG[19:16]`, which must be legal, `imm16` = `ARG[15:0]`. -/
def decodeF (arg : BitVec 24) (legal : Nibble → Bool) (mk : Nibble → Half → Instr) : Except DecodeError Instr :=
  if arg.extractLsb' 20 4 = 0 then
    if legal (arg.extractLsb' 16 4) then .ok (mk (arg.extractLsb' 16 4) (arg.extractLsb' 0 16))
    else .error .selectorOutOfRange
  else .error .nonzeroField

/-- `decode` (R46): a total function of the word alone; a word is either a command with its operands or illegal. -/
def decode (cmd : Word) : Except DecodeError Instr :=
  let op := opField cmd
  let arg := argField cmd
  if op = 0x10 then decodeZ arg .ckClr
  else if op = 0x11 then decodeB arg .ckByte
  else if op = 0x12 then decodeH arg .ckWord
  else if op = 0x13 then decodeZ arg .ckRead
  else if op = 0x20 then decodeF arg timeFieldSelLegal .btSet
  else if op = 0x21 then decodeZ arg .btEnc
  else if op = 0x22 then decodeS arg payloadSelLegal .btRd
  else if op = 0x30 then decodeS arg counterSelLegal .scNext
  else .error .unassignedOpcode

/-- The command word of a command (R41, R43): `OP` in bits 31:24, the zero field, then the operands. -/
def encode : Instr → Word
  | .ckClr => 0x10#8 ++ 0#24
  | .ckByte imm8 => 0x11#8 ++ 0#16 ++ imm8
  | .ckWord imm16 => 0x12#8 ++ 0#8 ++ imm16
  | .ckRead => 0x13#8 ++ 0#24
  | .btSet sel imm16 => 0x20#8 ++ 0#4 ++ sel ++ imm16
  | .btEnc => 0x21#8 ++ 0#24
  | .btRd sel => 0x22#8 ++ 0#20 ++ sel
  | .scNext sel => 0x30#8 ++ 0#20 ++ sel

/-- The command word whose bits are the low `nbits` bits of `w`, every bit above them 0 (DESIGN CHOICE, log 14; safe).
A command is one 32-bit word that is stored nowhere (R35, R40), so no byte order enters. -/
def tableWord (nbits w : Nat) : Word := BitVec.ofNat 32 (w % 2 ^ nbits)

/-- What the decoder reads from a word numbered as `spec/opcode_table.json` numbers it. -/
def decodeTableWord (nbits w : Nat) : Option Instr :=
  match decode (tableWord nbits w) with
  | .ok i => some i
  | .error _ => none

end Sys2Proof
end

