-- ==== Sys2Proof/Config.lean ====
section
/-! DEFINITION. The two parameters of the block (R4), fixed when it is built (R20): the modulus of counter 4 and the
control word of the time payload. Every rule that depends on one takes them as an argument; the machine runs with
`Config.params`, of which nothing is known. -/

namespace Sys2Proof

/-- The two admitted values of `TFC_MOD` (R4, U1 of `93_implementation_defined.md`). -/
inductive TfcModulus where
  /-- 16777215, the literal the source states. -/
  | literal
  /-- 16777216, the whole range of 24 bits. -/
  | wholeRange
  deriving DecidableEq, Repr, Inhabited

/-- `TFC_MOD` as a number (R4). -/
def TfcModulus.value : TfcModulus → Nat
  | .literal => 16777215
  | .wholeRange => 16777216

/-- `TIME_CSDW[0]` .. `TIME_CSDW[3]` (R4): the fixed four bytes before the BCD bytes of a time payload. -/
structure Csdw where
  c0 : Byte
  c1 : Byte
  c2 : Byte
  c3 : Byte
  deriving DecidableEq, Repr, Inhabited

/-- The parameters of one instance of the block (R4). -/
structure Params where
  tfcMod : TfcModulus
  timeCsdw : Csdw
  deriving DecidableEq, Repr, Inhabited

/-- The parameters of the block this model is about (R4, D13, D17): OPEN in the spec, so a constant with no body.
A theorem about the machine holds whichever admitted values they have (DESIGN CHOICE, log 4 and 5; safe). -/
opaque Config.params : Params

end Sys2Proof
end

