-- ==== Sys2Proof/Machine/State.lean ====
section
/-! DEFINITION. The state of the block (R10: exactly these elements, 283 bits), the two sides of its one port (R6, R47),
and the state right after reset (R26). Plain data throughout. -/

namespace Sys2Proof.Machine

/-- The ChecksumEngine's registers (R10 to R13). -/
structure CkRegs where
  /-- `CK_ACC`: the running sum of every complete word but the most recent. -/
  acc : Half
  /-- `CK_HOLD`: the most recent complete word. -/
  hold : Half
  /-- `CK_HV`: a complete word has been pushed since the last clear. -/
  hv : Bool
  /-- `CK_LOW`: the first byte of a word whose second byte has not arrived. -/
  low : Byte
  /-- `CK_LV`: an odd number of bytes has been pushed since the last clear. -/
  lv : Bool
  deriving DecidableEq, Repr

/-- `BT_IN[0]` .. `BT_IN[6]` (R14, R80): the seven binary time fields. -/
structure TimeFields where
  year : Half
  month : Half
  day : Half
  hour : Half
  minute : Half
  second : Half
  msec : Half
  deriving DecidableEq, Repr

/-- `BT_OUT[0]` .. `BT_OUT[7]` (R15): the eight packed-BCD bytes. -/
structure BcdBytes where
  b0 : Byte
  b1 : Byte
  b2 : Byte
  b3 : Byte
  b4 : Byte
  b5 : Byte
  b6 : Byte
  b7 : Byte
  deriving DecidableEq, Repr

/-- The BcdTimeEncoder's registers (R14 to R16). -/
structure BtRegs where
  /-- `BT_IN`. -/
  fields : TimeFields
  /-- `BT_OUT`. -/
  out : BcdBytes
  /-- `BT_VALID`: `BT_OUT` is the encoding of the present `BT_IN`. -/
  valid : Bool
  deriving DecidableEq, Repr

/-- The SequenceCounters (R17, R85): `SC[0]` .. `SC[4]`. -/
structure ScRegs where
  /-- `SC[0]`, OUTER. -/
  outer : BitVec 8
  /-- `SC[1]`, IENA. -/
  iena : BitVec 16
  /-- `SC[2]`, SEQCNT. -/
  seqcnt : BitVec 8
  /-- `SC[3]`, TIME. -/
  time : BitVec 8
  /-- `SC[4]`, TFC. -/
  tfc : BitVec 24
  deriving DecidableEq, Repr

/-- What the host can do to the block (R6, R110, R122). -/
inductive HostEvent where
  /-- Present one command word on the port. -/
  | command (cmd : Word)
  /-- Reset the block; `presented` are the words presented while the reset lasts, none of which is taken (R110). -/
  | reset (presented : List Word)
  deriving DecidableEq, Repr

/-- The four statuses a response can have (R95, U7: codes 4 to 15 are never produced). -/
inductive Status where
  | ok
  | illegal
  | range
  | notReady
  deriving DecidableEq, Repr

/-- What the block gives back for one command (R47). -/
structure Response where
  status : Status
  data : Word
  deriving DecidableEq, Repr

/-- What a rule raises, with its `info` (R8, R76, R77). The info is for the reader and is delivered to nobody (R96;
DEDUCED, log 18; safe). -/
inductive BlockError where
  /-- `E_ILLEGAL` (R98). -/
  | illegal
  /-- `E_RANGE(f)` (R76, R97): `f` is the first field that fails the range test. -/
  | range (first : TimeField)
  /-- `E_NOTREADY(sel)` (R77, R99). -/
  | notReady (sel : PayloadWord)
  deriving DecidableEq, Repr

/-- The whole machine: the block's registers (R10), and the model's own two fields for the host's side of the port. -/
structure State where
  /-- ChecksumEngine. -/
  ck : CkRegs
  /-- BcdTimeEncoder. -/
  bt : BtRegs
  /-- SequenceCounters. -/
  sc : ScRegs
  /-- The host's events the block has not yet taken, the next one first (R6, R27: an input, not block state;
  DESIGN CHOICE, log 1; safe). -/
  port : List HostEvent
  /-- The responses given so far, the oldest first (R121; not block state, R27; DESIGN CHOICE, log 2; safe). -/
  responses : List Response
  deriving DecidableEq, Repr

/-- Reasons to stop with a fault. There is none (DEDUCED, log 13; safe): an error of the block is a response and it goes on (R96),
every word is a command or `E_ILLEGAL` (R44), and every command terminates (R120). -/
inductive Fault where
  deriving DecidableEq, Repr

/-- Reasons to refuse an instruction. -/
inductive Refusal where
  /-- Raised by `exec` for an instruction whose meaning is not written yet (safe). No arm raises it: all eight have theirs. -/
  | notModelled (mnemonic : String)
  deriving DecidableEq, Repr

/-- The cleared ChecksumEngine: its reset state (R26), and its state after `CK_CLR` (R59, R111). -/
def CkRegs.cleared : CkRegs := { acc := 0, hold := 0, hv := false, low := 0, lv := false }

/-- Seven zero fields (R26). -/
def TimeFields.zero : TimeFields := { year := 0, month := 0, day := 0, hour := 0, minute := 0, second := 0, msec := 0 }

/-- Eight zero bytes (R24, R26, R75). -/
def BcdBytes.zero : BcdBytes := { b0 := 0, b1 := 0, b2 := 0, b3 := 0, b4 := 0, b5 := 0, b6 := 0, b7 := 0 }

/-- The BcdTimeEncoder after reset (R26). -/
def BtRegs.reset : BtRegs := { fields := .zero, out := .zero, valid := false }

/-- The SequenceCounters after reset (R26). -/
def ScRegs.reset : ScRegs := { outer := 0, iena := 0, seqcnt := 0, time := 0, tfc := 0 }

/-- The machine right after reset (R26): every register 0. No command is presented yet and no response has been given
(the block waits for a command, R111; DESIGN CHOICE, log 1 and 2). -/
def State.reset : State := { ck := .cleared, bt := .reset, sc := .reset, port := [], responses := [] }

end Sys2Proof.Machine
end

