-- ==== Sys2Proof/Machine/Flags.lean ====
section
/-! DEFINITION. The three one-bit flags (R19): `CK_HV`, `CK_LV`, `BT_VALID`, and what each command leaves in them. There is no
condition code, no carry or overflow flag and no sticky error flag. -/

namespace Sys2Proof.Machine

/-- `CK_LV` after a pushed byte: it toggles (R60). -/
def lvAfterByte (lv : Bool) : Bool := !lv

/-- `CK_HV` after a pushed byte: 1 once a word has completed, else as before (R60). -/
def hvAfterByte (lv hv : Bool) : Bool := lv || hv

/-- `BT_VALID` after a `BT_SET`: 0, whatever was written (R75). -/
def validAfterSet : Bool := false

/-- `BT_VALID` after a `BT_ENC` that succeeds: 1 (R76). -/
def validAfterEncode : Bool := true

end Sys2Proof.Machine
end

