-- ==== Sys2Proof/Machine/Operands.lean ====
section
/-! DEFINITION. Operand forms: what a selector selects (R45), the two bytes of an `imm16` (R32), the little-endian word two
bytes make (R31), and the zero extension of a value into the response (R34, R47). -/

namespace Sys2Proof.Machine

/-- `BT_SET` `sel` (R45, R80): 0 = YEAR .. 6 = MSEC; no field for 7 .. 15 (R44). -/
def timeFieldOfSel (sel : Nibble) : Option TimeField :=
  match sel.toNat with
  | 0 => some .year
  | 1 => some .month
  | 2 => some .day
  | 3 => some .hour
  | 4 => some .minute
  | 5 => some .second
  | 6 => some .msec
  | _ => none

/-- `BT_RD` `sel` (R45): 0 = control word, 1 = `BT_OUT[0..3]`, 2 = `BT_OUT[4..7]`; none for 3 .. 15 (R44). -/
def payloadWordOfSel (sel : Nibble) : Option PayloadWord :=
  match sel.toNat with
  | 0 => some .control
  | 1 => some .outLow
  | 2 => some .outHigh
  | _ => none

/-- `SC_NEXT` `sel` (R45, R85): 0 = OUTER .. 4 = TFC; no counter for 5 .. 15 (R44). -/
def counterOfSel (sel : Nibble) : Option CounterId :=
  match sel.toNat with
  | 0 => some .outer
  | 1 => some .iena
  | 2 => some .seqcnt
  | 3 => some .time
  | 4 => some .tfc
  | _ => none

/-- The earlier stream byte of a `CK_WORD` operand: `imm16[7:0]` (R32). -/
def earlierByte (imm16 : Half) : Byte := imm16.extractLsb' 0 8

/-- The later stream byte of a `CK_WORD` operand: `imm16[15:8]` (R32). -/
def laterByte (imm16 : Half) : Byte := imm16.extractLsb' 8 8

/-- The word two successive bytes make: the first byte is the less significant half (R31). -/
def littleEndianWord (first second : Byte) : Half := second ++ first

/-- Four bytes as a response word, the byte of lowest index in `data[7:0]` (R33). -/
def packWord (x0 x1 x2 x3 : Byte) : Word := x3 ++ x2 ++ x1 ++ x0

/-- The four bytes a little-endian host stores for a response word, in index order (R33). -/
def storedBytes (data : Word) : List Byte :=
  [data.extractLsb' 0 8, data.extractLsb' 8 8, data.extractLsb' 16 8, data.extractLsb' 24 8]

/-- `zext_32` of the checksum (R62). -/
def zext32 (v : Half) : Word := v.setWidth 32

end Sys2Proof.Machine
end

