-- ==== Sys2Proof/Machine/Ops.lean ====
section
/-! DEFINITION. The operations every command shares: answering a command (R8, R47), raising an error (R95, R96), reading and
writing the register files by element (R14, R17), and the host's side of the port (R6, R39, R110). -/

namespace Sys2Proof.Machine

/-- The 4-bit code of a status (R95). -/
def statusCode : Status → Nibble
  | .ok => 0
  | .illegal => 1
  | .range => 2
  | .notReady => 3

/-- The status an error is reported with (R95). -/
def errorStatus : BlockError → Status
  | .illegal => .illegal
  | .range _ => .range
  | .notReady _ => .notReady

/-- `rsp <- v` (R8): the command executed; status OK, data word `v`. -/
def respond (v : Word) (s : State) : State :=
  { s with responses := s.responses ++ [{ status := .ok, data := v }] }

/-- `raise E(info)` (R8, R96): no register is written; the response is the code of E with data 0, and the block goes on. -/
def raiseError (e : BlockError) (s : State) : State :=
  { s with responses := s.responses ++ [{ status := errorStatus e, data := 0 }] }

/-- `BT_IN[f]` (R14). -/
def readField (t : TimeFields) : TimeField → Half
  | .year => t.year
  | .month => t.month
  | .day => t.day
  | .hour => t.hour
  | .minute => t.minute
  | .second => t.second
  | .msec => t.msec

/-- `BT_IN[f] <- v` (R14, R75): the selected field only. -/
def writeField (t : TimeFields) (f : TimeField) (v : Half) : TimeFields :=
  match f with
  | .year => { t with year := v }
  | .month => { t with month := v }
  | .day => { t with day := v }
  | .hour => { t with hour := v }
  | .minute => { t with minute := v }
  | .second => { t with second := v }
  | .msec => { t with msec := v }

/-- `SC[i]` as a number (R17). -/
def readCounter (c : ScRegs) : CounterId → Nat
  | .outer => c.outer.toNat
  | .iena => c.iena.toNat
  | .seqcnt => c.seqcnt.toNat
  | .time => c.time.toNat
  | .tfc => c.tfc.toNat

/-- `SC[i] <- v` (R8, R17): the selected counter only, `v` cut to its width. -/
def writeCounter (c : ScRegs) (i : CounterId) (v : Nat) : ScRegs :=
  match i with
  | .outer => { c with outer := BitVec.ofNat 8 v }
  | .iena => { c with iena := BitVec.ofNat 16 v }
  | .seqcnt => { c with seqcnt := BitVec.ofNat 8 v }
  | .time => { c with time := BitVec.ofNat 8 v }
  | .tfc => { c with tfc := BitVec.ofNat 24 v }

/-- A reset between two commands (R110): every register takes its reset value (R26). Nothing is answered, and the words
presented while it lasts are not taken (DESIGN CHOICE, log 6; safe). The host's later events and its record of responses are the host's. -/
def resetBlock (s : State) : State :=
  { s with ck := CkRegs.cleared, bt := BtRegs.reset, sc := ScRegs.reset }

/-- The host presents these words, in this order, before anything else it has still to present (R39). -/
def present (cmds : List Word) (s : State) : State :=
  { s with port := cmds.map .command ++ s.port }

/-- What the port offers the block next (R6). -/
inductive Fetched where
  /-- Nothing is presented. -/
  | nothing
  /-- The host resets the block. -/
  | reset
  /-- A legal command. -/
  | legal (i : Instr)
  /-- A word `decode` maps to illegal (R46). -/
  | illegal (e : DecodeError)
  deriving DecidableEq, Repr

/-- Look at the host's next event and decode it if it is a command (R6, R46). -/
def fetch (s : State) : Fetched :=
  match s.port with
  | [] => .nothing
  | .reset _ :: _ => .reset
  | .command cmd :: _ =>
    match decode cmd with
    | .ok i => .legal i
    | .error e => .illegal e

/-- Take the host's next event off the port: it is presented once (R39). -/
def takeEvent (s : State) : State := { s with port := s.port.tail }

end Sys2Proof.Machine
end

