-- ==== Sys2Proof/Machine/BcdTime.lean ====
section
/-! DEFINITION. BcdTimeEncoder (`41_bcd_time.md`): the packing (R70 to R73), the range test (R74), the payload (R78), and the
meanings of `BT_SET`, `BT_ENC`, `BT_RD`. -/

namespace Sys2Proof.Machine

/-- `bcd2(v)` (R70): tens digit in the high nibble, units digit in the low one. The spec defines it for v <= 99 only, and
R74 keeps any other v from reaching it (DESIGN CHOICE, log 9; safe). -/
def bcd2 (v : Nat) : Byte := BitVec.ofNat 8 (((v / 10) <<< 4) ||| (v % 10))

/-- The sub-second byte (R71, R72, decision D9; UNVERIFIED, log 11; unsafe): hundreds and tens digit of the millisecond value. -/
def subSecondByte (ms : Nat) : Byte := BitVec.ofNat 8 (((ms / 100) <<< 4) ||| ((ms / 10) % 10))

/-- The eight output bytes for fields within the limits (R71, R73). -/
def encodeTime (t : TimeFields) : BcdBytes :=
  { b0 := subSecondByte t.msec.toNat
    b1 := bcd2 t.second.toNat
    b2 := bcd2 t.minute.toNat
    b3 := bcd2 t.hour.toNat
    b4 := bcd2 t.day.toNat
    b5 := bcd2 t.month.toNat
    b6 := bcd2 (t.year.toNat % 100)
    b7 := bcd2 (t.year.toNat / 100) }

/-- The largest encodable value of a field (R80). -/
def fieldLimit : TimeField → Nat
  | .year => 9999
  | .month => 99
  | .day => 99
  | .hour => 99
  | .minute => 99
  | .second => 99
  | .msec => 999

/-- The fields in selector order (R80). -/
def allFields : List TimeField := [.year, .month, .day, .hour, .minute, .second, .msec]

/-- One field can be written in its digits (R74). No calendar test (R79). -/
def fieldInRange (t : TimeFields) (f : TimeField) : Bool := (readField t f).toNat ≤ fieldLimit f

/-- `in_range` (R74). -/
def inRange (t : TimeFields) : Bool := allFields.all (fieldInRange t)

/-- The first field that fails the range test (R76). -/
def firstOutOfRange (t : TimeFields) : Option TimeField := allFields.find? (fun f => !fieldInRange t f)

/-- One word of the time payload (R77, R33). -/
def payloadWord (p : Params) (out : BcdBytes) : PayloadWord → Word
  | .control => packWord p.timeCsdw.c0 p.timeCsdw.c1 p.timeCsdw.c2 p.timeCsdw.c3
  | .outLow => packWord out.b0 out.b1 out.b2 out.b3
  | .outHigh => packWord out.b4 out.b5 out.b6 out.b7

/-- The 12-byte time payload (R78): the control word's four bytes, then the eight BCD bytes. -/
def timePayload (p : Params) (out : BcdBytes) : List Byte :=
  [p.timeCsdw.c0, p.timeCsdw.c1, p.timeCsdw.c2, p.timeCsdw.c3,
   out.b0, out.b1, out.b2, out.b3, out.b4, out.b5, out.b6, out.b7]

/-- What `BT_SET` does to BT for a legal selector (R75): the field, and the stale encoding is gone. -/
def storeField (f : TimeField) (v : Half) (b : BtRegs) : BtRegs :=
  { fields := writeField b.fields f v, out := BcdBytes.zero, valid := validAfterSet }

/-- `BT_RD` of one payload word under given parameters (R77, R99): refused while `BT_VALID` = 0. -/
def readPayload (p : Params) (k : PayloadWord) (s : State) : State :=
  if s.bt.valid then respond (payloadWord p s.bt.out k) s else raiseError (.notReady k) s

/-- `BT_SET sel, imm16` (R75). A selector above 6 is no command and raises `E_ILLEGAL` (R44; DEDUCED, log 17; safe). -/
def execBtSet (sel : Nibble) (imm16 : Half) (s : State) : Host.Outcome State Fault Refusal :=
  match timeFieldOfSel sel with
  | some f => .next (respond 0 { s with bt := storeField f imm16 s.bt })
  | none => .next (raiseError .illegal s)

/-- `BT_ENC` (R76). -/
def execBtEnc (s : State) : Host.Outcome State Fault Refusal :=
  match firstOutOfRange s.bt.fields with
  | some f => .next (raiseError (.range f) s)
  | none => .next (respond 0 { s with bt := { s.bt with out := encodeTime s.bt.fields, valid := validAfterEncode } })

/-- `BT_RD sel` (R77). A selector above 2 raises `E_ILLEGAL` before `BT_VALID` is tested (R44, R100;
DEDUCED, log 17; safe). -/
def execBtRd (sel : Nibble) (s : State) : Host.Outcome State Fault Refusal :=
  match payloadWordOfSel sel with
  | some k => .next (readPayload Config.params k s)
  | none => .next (raiseError .illegal s)

end Sys2Proof.Machine
end

