-- ==== Sys2Proof/Machine/Checksum.lean ====
section
/-! DEFINITION. ChecksumEngine (`40_checksum.md`): the function `CKSUM` (R55 to R58), the push of one byte (R60), and the
meanings of `CK_CLR`, `CK_BYTE`, `CK_WORD`, `CK_READ`. -/

namespace Sys2Proof.Machine

/-- The complete words of a byte list (R55): `w[k] = b[2k] + 256 * b[2k+1]`; a dangling byte is in no word (R57). -/
def completeWords : List Byte → List Half
  | first :: second :: rest => littleEndianWord first second :: completeWords rest
  | _ => []

/-- `CKSUM(b)` (R55): the sum of every complete word except the last one, modulo 65536; for an odd length both the dangling
byte and the last complete word are left out (R57, decision D5; UNVERIFIED, log 10; unsafe). -/
def cksum (b : List Byte) : Half :=
  BitVec.ofNat 16 (((completeWords b).dropLast.map BitVec.toNat).sum)

/-- Push the next byte of the buffer (R60): the first byte of a word is kept; the second completes the word, which goes to
`CK_HOLD`, and the word it displaces is added to `CK_ACC` modulo 2^16. -/
def pushByte (imm8 : Byte) (c : CkRegs) : CkRegs :=
  if c.lv = false then
    { c with low := imm8, lv := lvAfterByte c.lv }
  else
    { acc := if c.hv then c.acc + c.hold else c.acc
      hold := littleEndianWord c.low imm8
      hv := hvAfterByte c.lv c.hv
      low := 0
      lv := lvAfterByte c.lv }

/-- `CK_CLR` (R59). -/
def execCkClr (s : State) : Host.Outcome State Fault Refusal :=
  .next (respond 0 { s with ck := CkRegs.cleared })

/-- `CK_BYTE imm8` (R60). -/
def execCkByte (imm8 : Byte) (s : State) : Host.Outcome State Fault Refusal :=
  .next (respond 0 { s with ck := pushByte imm8 s.ck })

/-- `CK_WORD imm16` (R61): the effect of `CK_BYTE imm16[7:0]` and then `CK_BYTE imm16[15:8]`, as one step with one response
(in a state outside R24: DESIGN CHOICE, log 7). -/
def execCkWord (imm16 : Half) (s : State) : Host.Outcome State Fault Refusal :=
  .next (respond 0 { s with ck := pushByte (laterByte imm16) (pushByte (earlierByte imm16) s.ck) })

/-- `CK_READ` (R62). -/
def execCkRead (s : State) : Host.Outcome State Fault Refusal :=
  .next (respond (zext32 s.ck.acc) s)

end Sys2Proof.Machine
end

