-- ==== Sys2Proof/Machine/Counters.lean ====
section
/-! DEFINITION. SequenceCounters (`42_sequence_counters.md`): the moduli (R86), the law of `next()` (R87), and the meaning of
`SC_NEXT`. -/

namespace Sys2Proof.Machine

/-- `MOD[i]` (R86). -/
def counterMod (p : Params) : CounterId → Nat
  | .outer => 256
  | .iena => 65536
  | .seqcnt => 256
  | .time => 256
  | .tfc => p.tfcMod.value

/-- `MAX[i]` = `MOD[i] - 1` (R17, R86): the largest value the counter holds or returns. -/
def counterMax (p : Params) (i : CounterId) : Nat := counterMod p i - 1

/-- The new value of a counter that holds `v` (R87, R88): 0 after `MAX[i]`, else one more (in a state outside R24:
DESIGN CHOICE, log 8). -/
def nextCount (p : Params) (i : CounterId) (v : Nat) : Nat :=
  if v = counterMax p i then 0 else v + 1

/-- `SC_NEXT` of one counter under given parameters (R88): the value before the advance is returned. -/
def advanceCounter (p : Params) (i : CounterId) (s : State) : State :=
  respond (BitVec.ofNat 32 (readCounter s.sc i))
    { s with sc := writeCounter s.sc i (nextCount p i (readCounter s.sc i)) }

/-- `SC_NEXT sel` (R88). A selector above 4 is no command and raises `E_ILLEGAL` (R44; DEDUCED, log 17; safe). -/
def execScNext (sel : Nibble) (s : State) : Host.Outcome State Fault Refusal :=
  match counterOfSel sel with
  | some i => .next (advanceCounter Config.params i s)
  | none => .next (raiseError .illegal s)

end Sys2Proof.Machine
end

