-- ==== Sys2Proof/Machine/Dispatch.lean ====
section
/-! DEFINITION. One arm per command (R43): each is one call of its meaning. -/

namespace Sys2Proof.Machine

def exec (i : Instr) (s : State) : Host.Outcome State Fault Refusal :=
  match i with
  -- ChecksumEngine
  | .ckClr => Sys2Proof.Machine.execCkClr s
  | .ckByte imm8 => Sys2Proof.Machine.execCkByte imm8 s
  | .ckWord imm16 => Sys2Proof.Machine.execCkWord imm16 s
  | .ckRead => Sys2Proof.Machine.execCkRead s
  -- BcdTimeEncoder
  | .btSet sel imm16 => Sys2Proof.Machine.execBtSet sel imm16 s
  | .btEnc => Sys2Proof.Machine.execBtEnc s
  | .btRd sel => Sys2Proof.Machine.execBtRd sel s
  -- SequenceCounters
  | .scNext sel => Sys2Proof.Machine.execScNext sel s

end Sys2Proof.Machine
end

