-- ==== Sys2Proof/Machine/Step.lean ====
section
/-! DEFINITION. One step (R6): take the host's next event; run the command, raise `E_ILLEGAL` for a word that is none, or be
reset; with nothing presented, nothing happens. -/

namespace Sys2Proof.Machine

/-- One step of the block (R6, R36, R39, R101, R110). A step with nothing presented is DESIGN CHOICE, log 3; safe. -/
def step (s : State) : Host.Outcome State Fault Refusal :=
  match fetch s with
  | .nothing => .next s
  | .reset => .next (resetBlock (takeEvent s))
  | .legal i => exec i (takeEvent s)
  | .illegal _ => .next (raiseError .illegal (takeEvent s))

/-- The host presents this command word next (DESIGN CHOICE, log 14; DEDUCED, log 15): the block has no program counter and no program memory (R22). -/
def State.withFetchWord (s : State) (nbits w : Nat) : State := present [tableWord nbits w] s

end Sys2Proof.Machine
end

