-- ==== Sys2Proof/Machine/Pseudo.lean ====
section
/-! DEFINITION. The four pseudo-commands (R49). Each expands to commands of R43; none adds behaviour. -/

namespace Sys2Proof.Machine

/-- `CK_SUM b0 b1 ...` (R49): the checksum of a buffer, pushed a byte at a time. -/
def ckSum (b : List Byte) : List Instr := [.ckClr] ++ b.map .ckByte ++ [.ckRead]

/-- The pushes of `CK_SUMW` (R49): two bytes a command, a dangling byte by itself. -/
def pushesByWord : List Byte → List Instr
  | first :: second :: rest => .ckWord (littleEndianWord first second) :: pushesByWord rest
  | [last] => [.ckByte last]
  | [] => []

/-- `CK_SUMW b0 b1 ...` (R49): the same checksum, pushed two bytes at a time. -/
def ckSumW (b : List Byte) : List Instr := [.ckClr] ++ pushesByWord b ++ [.ckRead]

/-- `BT_TIME year, month, day, hour, minute, second, msec` (R49). -/
def btTime (t : TimeFields) : List Instr :=
  [.btSet 0 t.year, .btSet 1 t.month, .btSet 2 t.day, .btSet 3 t.hour, .btSet 4 t.minute, .btSet 5 t.second,
   .btSet 6 t.msec, .btEnc]

/-- `BT_PAYLOAD` (R49): the three words of the time payload. -/
def btPayload : List Instr := [.btRd 0, .btRd 1, .btRd 2]

end Sys2Proof.Machine
end

