-- ==== Sys2Proof/Machine/Assembler.lean ====
section
/-! DEFINITION. The assembler of R48: from a line of text to command words. It refuses (answers none) an operand that does not
fit its field and a selector out of range; a selector may be written as its number or as its name (R45). -/

namespace Sys2Proof.Machine

/-- The mnemonics of R43 and R49. -/
inductive AsmMnemonic where
  | ckClr | ckByte | ckWord | ckRead | btSet | btEnc | btRd | scNext | ckSum | ckSumW | btTime | btPayload
  deriving DecidableEq, Repr

/-- An operand as written (R48). -/
inductive AsmOperand where
  | number (n : Nat)
  | name (chars : List Char)
  deriving DecidableEq, Repr

/-- One line that holds a command (R48). -/
structure AsmLine where
  mnemonic : AsmMnemonic
  operands : List AsmOperand
  deriving DecidableEq, Repr

/-- The spelling of the mnemonics: upper case (R48). -/
def asmMnemonics : List (List Char × AsmMnemonic) :=
  [("CK_CLR".toList, .ckClr), ("CK_BYTE".toList, .ckByte), ("CK_WORD".toList, .ckWord), ("CK_READ".toList, .ckRead),
   ("BT_SET".toList, .btSet), ("BT_ENC".toList, .btEnc), ("BT_RD".toList, .btRd), ("SC_NEXT".toList, .scNext),
   ("CK_SUM".toList, .ckSum), ("CK_SUMW".toList, .ckSumW), ("BT_TIME".toList, .btTime),
   ("BT_PAYLOAD".toList, .btPayload)]

/-- The names of the time fields in selector order (R45). -/
def timeFieldNames : List (List Char) :=
  ["YEAR".toList, "MONTH".toList, "DAY".toList, "HOUR".toList, "MINUTE".toList, "SECOND".toList, "MSEC".toList]

/-- The names of the payload words in selector order (R45). -/
def payloadNames : List (List Char) := ["TIME_CSDW".toList, "BT_OUT[0..3]".toList, "BT_OUT[4..7]".toList]

/-- The names of the counters in selector order (R45). -/
def counterNames : List (List Char) :=
  ["OUTER".toList, "IENA".toList, "SEQCNT".toList, "TIME".toList, "TFC".toList]

/-- An 8-bit immediate: a number that fits (R48). -/
def imm8Operand : AsmOperand → Option Byte
  | .number n => if n < 256 then some (BitVec.ofNat 8 n) else none
  | .name _ => none

/-- A 16-bit immediate: a number that fits (R48). -/
def imm16Operand : AsmOperand → Option Half
  | .number n => if n < 65536 then some (BitVec.ofNat 16 n) else none
  | .name _ => none

/-- A selector: a number in the legal range, or one of the names (R45, R48). -/
def selectorOperand (names : List (List Char)) : AsmOperand → Option Nibble
  | .number n => if n < names.length then some (BitVec.ofNat 4 n) else none
  | .name c => (names.findIdx? (· == c)).map (BitVec.ofNat 4)

/-- The commands of one line (R48, R49); none where the assembler refuses it. -/
def assembleCommands (l : AsmLine) : Option (List Instr) :=
  match l.mnemonic, l.operands with
  | .ckClr, [] => some [.ckClr]
  | .ckByte, [v] => (imm8Operand v).map fun b => [.ckByte b]
  | .ckWord, [v] => (imm16Operand v).map fun h => [.ckWord h]
  | .ckRead, [] => some [.ckRead]
  | .btSet, [f, v] =>
    match selectorOperand timeFieldNames f, imm16Operand v with
    | some sel, some h => some [.btSet sel h]
    | _, _ => none
  | .btEnc, [] => some [.btEnc]
  | .btRd, [k] => (selectorOperand payloadNames k).map fun sel => [.btRd sel]
  | .scNext, [i] => (selectorOperand counterNames i).map fun sel => [.scNext sel]
  | .ckSum, bytes => (bytes.mapM imm8Operand).map ckSum
  | .ckSumW, bytes => (bytes.mapM imm8Operand).map ckSumW
  | .btTime, values =>
    match values.mapM imm16Operand with
    | some [year, month, day, hour, minute, second, msec] =>
      some (btTime { year, month, day, hour, minute, second, msec })
    | _ => none
  | .btPayload, [] => some btPayload
  | _, _ => none

/-- The command words of one line (R48). -/
def assemble (l : AsmLine) : Option (List Word) := (assembleCommands l).map (·.map encode)

/-- A blank of the text. -/
def isAsmBlank (c : Char) : Bool := c == ' ' || c == '\t'

/-- The text without its leading and trailing blanks. -/
def trimBlanks (t : List Char) : List Char := ((t.dropWhile isAsmBlank).reverse.dropWhile isAsmBlank).reverse

/-- The digits in the order of their values; a number of base n is written with the first n of them (R48: n is 10 or 16). -/
def digitChars : List Char := "0123456789ABCDEF".toList

/-- The value of a digit of a base, of either case (DESIGN CHOICE, log 16): its place among that base's digits. -/
def digitValue (base : Nat) (c : Char) : Option Nat := (digitChars.take base).findIdx? (· == c.toUpper)

/-- Digits of a base, most significant first; none where a character is no digit of it. -/
def digitsValue (base : Nat) (digits : List Char) : Option Nat :=
  digits.foldlM (fun value c => (digitValue base c).map (base * value + ·)) 0

/-- An operand (R48): hexadecimal with `0x`, a decimal number, or else a name. -/
def parseOperand (t : List Char) : Option AsmOperand :=
  match t with
  | [] => none
  | '0' :: 'x' :: d :: rest => (digitsValue 16 (d :: rest)).map .number
  | d :: rest =>
    match digitsValue 10 (d :: rest) with
    | some n => some (.number n)
    | none => some (.name (d :: rest))

/-- One line of text (R48; DESIGN CHOICE, log 16): the mnemonic, then its operands separated by commas (by blanks for `CK_SUM` and
`CK_SUMW`, as R49 writes them); `;` starts a comment. `some none` is a line that holds no command. -/
def parseLine (text : List Char) : Option (Option AsmLine) :=
  let t := trimBlanks (text.takeWhile (· != ';'))
  if t = [] then some none
  else
    let rest := trimBlanks (t.dropWhile (fun c => !isAsmBlank c))
    match asmMnemonics.lookup (t.takeWhile (fun c => !isAsmBlank c)) with
    | none => none
    | some m =>
      let pieces :=
        if rest = [] then []
        else if m = .ckSum ∨ m = .ckSumW then (rest.splitOnP isAsmBlank).filter (· ≠ [])
        else (rest.splitOn ',').map trimBlanks
      (pieces.mapM parseOperand).map fun ops => some { mnemonic := m, operands := ops }

/-- The command words of one line of text; none where it is refused (R48). -/
def assembleText (text : List Char) : Option (List Word) :=
  match parseLine text with
  | none => none
  | some none => some []
  | some (some l) => assemble l

end Sys2Proof.Machine
end

