-- ==== Sys2Proof/Safety.lean ====
section
/-! DEFINITION. The terms claims use: the canonical states (R24), runs of commands (R121), what a run has pushed and drawn
(R63, R90), and the digits BCD bytes show (R70). -/

namespace Sys2Proof.Machine

/-- The canonical states (R24): every reachable state is one. -/
structure Canonical (p : Params) (s : State) : Prop where
  /-- R24 point 1. -/
  noWordHeld : s.ck.hv = false → s.ck.hold = 0 ∧ s.ck.acc = 0
  /-- R24 point 2. -/
  noBytePending : s.ck.lv = false → s.ck.low = 0
  /-- R24 point 3. -/
  noEncoding : s.bt.valid = false → s.bt.out = BcdBytes.zero
  /-- R24 point 4. -/
  freshEncoding : s.bt.valid = true → inRange s.bt.fields = true ∧ s.bt.out = encodeTime s.bt.fields
  /-- R24 point 5. -/
  countersBelowMod : ∀ i, readCounter s.sc i ≤ counterMax p i

/-- The two states hold the same in every register of the block (R10). -/
def SameRegisters (s t : State) : Prop := t.ck = s.ck ∧ t.bt = s.bt ∧ t.sc = s.sc

/-- Whenever the host presents this word it is answered `E_ILLEGAL`, data 0, and nothing else changes (R96, R98). -/
def AnsweredIllegal (cmd : Word) : Prop :=
  ∀ (s : State) (later : List HostEvent), s.port = .command cmd :: later →
    step s = .next { s with port := later, responses := s.responses ++ [{ status := .illegal, data := 0 }] }

/-- The selector that names a time field (R45, R80). -/
def selOfField : TimeField → Nibble
  | .year => 0
  | .month => 1
  | .day => 2
  | .hour => 3
  | .minute => 4
  | .second => 5
  | .msec => 6

/-- The selector that names a counter (R45, R85). -/
def selOfCounter : CounterId → Nibble
  | .outer => 0
  | .iena => 1
  | .seqcnt => 2
  | .time => 3
  | .tfc => 4

/-- The units of the block (R1). -/
inductive BlockUnit where
  | ck | bt | sc
  deriving DecidableEq, Repr

/-- The unit a command belongs to (R40). -/
def unitOf : Instr → BlockUnit
  | .ckClr => .ck
  | .ckByte _ => .ck
  | .ckWord _ => .ck
  | .ckRead => .ck
  | .btSet _ _ => .bt
  | .btEnc => .bt
  | .btRd _ => .bt
  | .scNext _ => .sc

/-- The word is a command of the unit; an illegal word is none of any unit. -/
def ofUnit (u : BlockUnit) (cmd : Word) : Bool :=
  match decode cmd with
  | .ok i => unitOf i = u
  | .error _ => false

/-- The host presents these words from state `s` and the block executes each (R39, R121). -/
def runWords (cmds : List Word) (s : State) : Host.Outcome State Fault Refusal :=
  Host.Core.run Sys2Proof.core cmds.length (present cmds s)

/-- The host presents these commands from state `s`. -/
def runCommands (cmds : List Instr) (s : State) : Host.Outcome State Fault Refusal :=
  runWords (cmds.map encode) s

/-- The bytes a command pushes, in order (R63): one per `CK_BYTE`, two per `CK_WORD`, low byte first. -/
def pushedBytes : Instr → List Byte
  | .ckByte b => [b]
  | .ckWord h => [earlierByte h, laterByte h]
  | .ckClr => []
  | .ckRead => []
  | .btSet _ _ => []
  | .btEnc => []
  | .btRd _ => []
  | .scNext _ => []

/-- The bytes a command word pushes: none for a word that is illegal (R96, R98). -/
def pushedByWord (cmd : Word) : List Byte :=
  match decode cmd with
  | .ok i => pushedBytes i
  | .error _ => []

/-- The CK registers after the bytes `b` have been pushed since the last clear, as R63 tabulates them. -/
structure CkHolds (c : CkRegs) (b : List Byte) : Prop where
  acc : c.acc = cksum b
  hv : c.hv = decide (1 ≤ b.length / 2)
  hold : c.hold = (completeWords b).getLast?.getD 0
  lv : c.lv = decide (b.length % 2 = 1)
  low : c.low = if b.length % 2 = 1 then b.getLast?.getD 0 else 0

/-- How many of the words are `SC_NEXT i` (R90). -/
def drawsOf (i : CounterId) (cmds : List Word) : Nat :=
  cmds.countP fun cmd => match decode cmd with
    | .ok c => c = .scNext (selOfCounter i)
    | .error _ => false

/-- The two decimal digits a BCD byte shows, the high nibble the more significant (R70). -/
def highDigit (b : Byte) : Nat := (b.extractLsb' 4 4).toNat

/-- The units digit a BCD byte shows (R70). -/
def lowDigit (b : Byte) : Nat := (b.extractLsb' 0 4).toNat

/-- Both nibbles are decimal digits (R24 point 4, R70). -/
def isBcd (b : Byte) : Bool := highDigit b ≤ 9 && lowDigit b ≤ 9

/-- The eight bytes in index order. -/
def outBytes (o : BcdBytes) : List Byte := [o.b0, o.b1, o.b2, o.b3, o.b4, o.b5, o.b6, o.b7]

end Sys2Proof.Machine
end

