-- ==== Sys2Proof/Certificates/Slice0/Obligations.lean ====
section
/-! DEFINITION. The statements for the provers. Each docstring names the rules of `spec/` it formalises. `D5` and `D9` are the
spec's own readings of an ambiguous source (U3, U4): a statement that rests on one says so. -/

open Sys2Proof Sys2Proof.Machine

/-! ### Encoding -/

/-- Words written out from the formats and the opcode map (R41, R43, the decode table of `95_test_vectors.md` 2.5) decode to
the commands they stand for, and their illegal neighbours are refused. -/
def Obligations.TableWordsDecode : Prop :=
  (decode 0x10000000 = .ok .ckClr ∧ decode 0x110000FF = .ok (.ckByte 0xFF) ∧ decode 0x1200FFFE = .ok (.ckWord 0xFFFE) ∧
    decode 0x13000000 = .ok .ckRead ∧ decode 0x2006FFFE = .ok (.btSet 6 0xFFFE) ∧ decode 0x21000000 = .ok .btEnc ∧
    decode 0x22000002 = .ok (.btRd 2) ∧ decode 0x30000004 = .ok (.scNext 4)) ∧
  (decode 0x00000000 = .error .unassignedOpcode ∧ decode 0x11000100 = .error .nonzeroField ∧
    decode 0x20070000 = .error .selectorOutOfRange ∧ decode 0x22000003 = .error .selectorOutOfRange ∧
    decode 0x30000005 = .error .selectorOutOfRange)

/-- R48, R42: encoding and then decoding a well-formed command gives it back, with every operand at every value. -/
def Obligations.DecodeOfEncode : Prop :=
  ∀ i : Instr, i.wellFormed = true → decode (encode i) = .ok i

/-- R46: a word that decodes to a command is the one word that encodes it, and the command is well-formed. -/
def Obligations.EncodeOfDecode : Prop :=
  ∀ (cmd : Word) (i : Instr), decode cmd = .ok i → encode i = cmd ∧ i.wellFormed = true

/-- R43: a word selects the command of a row exactly when `(cmd & mask) = match` and its selector is legal, with the operands
of the row's fields (R42); every other word is illegal; and the count of legal command words is 524555. -/
def Obligations.WordSelectsTableRow : Prop :=
  (∀ cmd : Word,
    (decode cmd = .ok .ckClr ↔ cmd &&& 0xFFFFFFFF = 0x10000000) ∧
    (∀ b, decode cmd = .ok (.ckByte b) ↔ cmd &&& 0xFFFFFF00 = 0x11000000 ∧ b = cmd.extractLsb' 0 8) ∧
    (∀ h, decode cmd = .ok (.ckWord h) ↔ cmd &&& 0xFFFF0000 = 0x12000000 ∧ h = cmd.extractLsb' 0 16) ∧
    (decode cmd = .ok .ckRead ↔ cmd &&& 0xFFFFFFFF = 0x13000000) ∧
    (∀ f h, decode cmd = .ok (.btSet f h) ↔
      cmd &&& 0xFFF00000 = 0x20000000 ∧ f = cmd.extractLsb' 16 4 ∧ f.toNat ≤ 6 ∧ h = cmd.extractLsb' 0 16) ∧
    (decode cmd = .ok .btEnc ↔ cmd &&& 0xFFFFFFFF = 0x21000000) ∧
    (∀ k, decode cmd = .ok (.btRd k) ↔ cmd &&& 0xFFFFFFF0 = 0x22000000 ∧ k = cmd.extractLsb' 0 4 ∧ k.toNat ≤ 2) ∧
    (∀ k, decode cmd = .ok (.scNext k) ↔ cmd &&& 0xFFFFFFF0 = 0x30000000 ∧ k = cmd.extractLsb' 0 4 ∧ k.toNat ≤ 4)) ∧
  ((Finset.range (2 ^ 32)).filter fun n => (decode (BitVec.ofNat 32 n)).toOption.isSome = true).card = 524555

/-- R44, R98: a word is illegal exactly when its opcode is unassigned, or a zero field of its format is not zero, or its selector
is outside the legal range; an illegal word executes nothing and is answered `E_ILLEGAL`,
whatever the state. -/
def Obligations.IllegalWordsAreExactlyThese : Prop :=
  ∀ cmd : Word,
    ((∃ e, decode cmd = .error e) → AnsweredIllegal cmd) ∧
    ((∃ e, decode cmd = .error e) ↔
      (cmd.extractLsb' 24 8 ∉ ([0x10, 0x11, 0x12, 0x13, 0x20, 0x21, 0x22, 0x30] : List Byte)) ∨
      (cmd.extractLsb' 24 8 ∈ ([0x10, 0x13, 0x21] : List Byte) ∧ cmd.extractLsb' 0 24 ≠ 0) ∨
      (cmd.extractLsb' 24 8 = 0x11 ∧ cmd.extractLsb' 8 16 ≠ 0) ∨
      (cmd.extractLsb' 24 8 = 0x12 ∧ cmd.extractLsb' 16 8 ≠ 0) ∨
      (cmd.extractLsb' 24 8 = 0x20 ∧ (cmd.extractLsb' 20 4 ≠ 0 ∨ 6 < (cmd.extractLsb' 16 4).toNat)) ∨
      (cmd.extractLsb' 24 8 = 0x22 ∧ (cmd.extractLsb' 4 20 ≠ 0 ∨ 2 < (cmd.extractLsb' 0 4).toNat)) ∨
      (cmd.extractLsb' 24 8 = 0x30 ∧ (cmd.extractLsb' 4 20 ≠ 0 ∨ 4 < (cmd.extractLsb' 0 4).toNat)))

/-- R48: the assembled word of each command, as the formula of the table gives it. -/
def Obligations.EncodeFollowsAssemblerTable : Prop :=
  encode .ckClr = 0x10000000 ∧ (∀ b, encode (.ckByte b) = 0x11000000 + b.setWidth 32) ∧
  (∀ h, encode (.ckWord h) = 0x12000000 + h.setWidth 32) ∧ encode .ckRead = 0x13000000 ∧
  (∀ f h, encode (.btSet f h) = 0x20000000 + (f.setWidth 32 <<< 16) + h.setWidth 32) ∧ encode .btEnc = 0x21000000 ∧
  (∀ k, encode (.btRd k) = 0x22000000 + k.setWidth 32) ∧ (∀ k, encode (.scNext k) = 0x30000000 + k.setWidth 32)

/-- R48: an assembler never produces an illegal word. -/
def Obligations.AssemblerNeverProducesIllegalWord : Prop :=
  ∀ (l : AsmLine) (cmds : List Word), assemble l = some cmds → ∀ cmd ∈ cmds, ∃ i, decode cmd = .ok i

/-- R48: an assembler refuses an operand that does not fit its field or a selector out of range; what fits is assembled. -/
def Obligations.AssemblerRefusesWhatDoesNotFit : Prop :=
  ∀ n m : Nat,
    assemble { mnemonic := .ckByte, operands := [.number n] } =
      (if n < 256 then some [BitVec.ofNat 32 (0x11000000 + n)] else none) ∧
    assemble { mnemonic := .ckWord, operands := [.number n] } =
      (if n < 65536 then some [BitVec.ofNat 32 (0x12000000 + n)] else none) ∧
    assemble { mnemonic := .btSet, operands := [.number n, .number m] } =
      (if n ≤ 6 ∧ m < 65536 then some [BitVec.ofNat 32 (0x20000000 + n * 65536 + m)] else none) ∧
    assemble { mnemonic := .btRd, operands := [.number n] } =
      (if n ≤ 2 then some [BitVec.ofNat 32 (0x22000000 + n)] else none) ∧
    assemble { mnemonic := .scNext, operands := [.number n] } =
      (if n ≤ 4 then some [BitVec.ofNat 32 (0x30000000 + n)] else none)

/-! ### The step -/

/-- R6, R39: when the word the host presents decodes to a well-formed command, the step is that command's effect with the
word taken off the port. -/
def Obligations.StepRunsDecodedCommand : Prop :=
  ∀ (s : State) (cmd : Word) (later : List HostEvent) (i : Instr),
    s.port = .command cmd :: later → decode cmd = .ok i → step s = exec i { s with port := later }

/-- R101 (log 3, the model's choice of what a step with no command is): with nothing presented, nothing happens. -/
def Obligations.NothingHappensBetweenCommands : Prop :=
  ∀ s : State, s.port = [] → step s = .next s

/-- R110, R26 (log 6 on the words presented meanwhile): a reset puts every register to 0 whatever it held, answers nothing and
takes none of the words presented during it. -/
def Obligations.ResetClearsEveryRegister : Prop :=
  ∀ (s : State) (presented : List Word) (later : List HostEvent),
    s.port = .reset presented :: later →
      ∃ t, step s = .next t ∧ SameRegisters State.reset t ∧ t.port = later ∧ t.responses = s.responses

/-- R26: the reset value of every element, and a reset puts the block there whatever the state before. -/
def Obligations.ResetValuesAreZero : Prop :=
  State.reset.ck.acc = 0 ∧ State.reset.ck.hold = 0 ∧ State.reset.ck.hv = false ∧ State.reset.ck.low = 0 ∧
  State.reset.ck.lv = false ∧ (∀ f, readField State.reset.bt.fields f = 0) ∧ outBytes State.reset.bt.out = List.replicate 8 0 ∧
  State.reset.bt.valid = false ∧ (∀ i, readCounter State.reset.sc i = 0) ∧ (∀ s, SameRegisters State.reset (resetBlock s))

/-- R47, R39, R120, R121: every sequence of words, legal or not, is executed to its end from every state: one response for each
word, after those given before, and the port is left as it was behind them. The responses come in the order of the words: those
of `a ++ b` are those of `a` and then those of `b` run from the state `a` leaves (with one word in `b`, that word's response). -/
def Obligations.EveryWordIsAnsweredOnce : Prop :=
  (∀ (cmds : List Word) (s : State),
    ∃ t rs, runWords cmds s = .next t ∧ t.responses = s.responses ++ rs ∧ rs.length = cmds.length ∧ t.port = s.port) ∧
  ∀ (a b : List Word) (s : State), ∃ t u ra rb,
    runWords a s = .next t ∧ t.responses = s.responses ++ ra ∧ ra.length = a.length ∧
    runWords b t = .next u ∧ u.responses = t.responses ++ rb ∧ rb.length = b.length ∧
    runWords (a ++ b) s = .next u ∧ u.responses = s.responses ++ (ra ++ rb)

/-- R95, R96, R97, R98, R100: the codes of the four statuses, none above 3. For every word in every state there is one response; its status is `E_ILLEGAL` exactly when
the word is illegal, `E_RANGE` exactly when it is `BT_ENC` and a field is out of range, `E_NOTREADY` exactly when it is a
legal `BT_RD` and `BT_VALID` = 0; and with every error the data word is 0 and no register changes. -/
def Obligations.ErrorsAndTheirCauses : Prop :=
  (statusCode .ok = 0 ∧ statusCode .illegal = 1 ∧ statusCode .range = 2 ∧ statusCode .notReady = 3 ∧
    ∀ st, (statusCode st).toNat < 4) ∧
  ∀ (s : State) (cmd : Word) (later : List HostEvent), s.port = .command cmd :: later →
    ∃ t r, step s = .next t ∧ t.responses = s.responses ++ [r] ∧ t.port = later ∧
      (r.status = .illegal ↔ ∃ e, decode cmd = .error e) ∧
      (r.status = .range ↔ decode cmd = .ok .btEnc ∧ inRange s.bt.fields = false) ∧
      (r.status = .notReady ↔ (∃ k, decode cmd = .ok (.btRd k)) ∧ s.bt.valid = false) ∧
      (r.status ≠ .ok → r.data = 0 ∧ SameRegisters s t)

/-! ### ChecksumEngine -/

/-- R59: `CK_CLR`, the word 0x10000000, clears the five CK registers and leaves the rest; with ARG != 0 it is illegal. -/
def Obligations.CkClrClears : Prop :=
  (∀ s : State, exec .ckClr s = .next { s with
    ck := { acc := 0, hold := 0, hv := false, low := 0, lv := false }
    responses := s.responses ++ [{ status := .ok, data := 0 }] }) ∧
  encode .ckClr = 0x10000000 ∧
  ∀ cmd : Word, cmd.extractLsb' 24 8 = 0x10 → cmd.extractLsb' 0 24 ≠ 0 → AnsweredIllegal cmd

/-- R60: `CK_BYTE`, in every state; the rest of the machine as before; with `cmd[23:8]` != 0 it is illegal. -/
def Obligations.CkBytePushesOneByte : Prop :=
  (∀ (b : Byte) (s : State), exec (.ckByte b) s = .next { s with
    ck :=
      if s.ck.lv = false then { s.ck with low := b, lv := true }
      else
        { acc := if s.ck.hv = true then BitVec.ofNat 16 ((s.ck.acc.toNat + s.ck.hold.toNat) % 65536) else s.ck.acc
          hold := b ++ s.ck.low, hv := true, low := 0, lv := false }
    responses := s.responses ++ [{ status := .ok, data := 0 }] }) ∧
  (∀ b, encode (.ckByte b) = 0x11000000 + b.setWidth 32) ∧
  ∀ cmd : Word, cmd.extractLsb' 24 8 = 0x11 → cmd.extractLsb' 8 16 ≠ 0 → AnsweredIllegal cmd

/-- R61: `CK_WORD imm16` has on the state exactly the effect of `CK_BYTE imm16[7:0]` followed by `CK_BYTE imm16[15:8]`, as one
step with one response; written out for a state whose pending byte is 0 when none is pending (R24 point 2; log 7 on other
states); with `cmd[23:16]` != 0 it is illegal. -/
def Obligations.CkWordIsTwoCkBytes : Prop :=
  (∀ (h : Half) (s : State), ∃ t u,
    exec (.ckByte (h.extractLsb' 0 8)) s = .next t ∧ exec (.ckByte (h.extractLsb' 8 8)) t = .next u ∧
    exec (.ckWord h) s = .next { u with responses := s.responses ++ [{ status := .ok, data := 0 }] }) ∧
  (∀ (h : Half) (s : State), (s.ck.lv = false → s.ck.low = 0) →
    exec (.ckWord h) s = .next { s with
      ck :=
        { acc := if s.ck.hv = true then BitVec.ofNat 16 ((s.ck.acc.toNat + s.ck.hold.toNat) % 65536) else s.ck.acc
          hold := if s.ck.lv = false then h else h.extractLsb' 0 8 ++ s.ck.low
          hv := true
          low := if s.ck.lv = false then 0 else h.extractLsb' 8 8
          lv := s.ck.lv }
      responses := s.responses ++ [{ status := .ok, data := 0 }] }) ∧
  (∀ h, encode (.ckWord h) = 0x12000000 + h.setWidth 32) ∧
  ∀ cmd : Word, cmd.extractLsb' 24 8 = 0x12 → cmd.extractLsb' 16 8 ≠ 0 → AnsweredIllegal cmd

/-- R62: `CK_READ`, the word 0x13000000, returns `CK_ACC` zero-extended in every state and writes no state; with ARG != 0 it is
illegal. -/
def Obligations.CkReadReturnsAccumulator : Prop :=
  (∀ s : State, ∃ t, exec .ckRead s = .next t ∧ SameRegisters s t ∧ t.port = s.port ∧
    ∃ r, t.responses = s.responses ++ [r] ∧ r.status = .ok ∧ r.data.toNat = s.ck.acc.toNat) ∧
  encode .ckRead = 0x13000000 ∧
  ∀ cmd : Word, cmd.extractLsb' 24 8 = 0x13 → cmd.extractLsb' 0 24 ≠ 0 → AnsweredIllegal cmd

/-- R55, R31: `CKSUM(b)` by index: the sum of `w[k] = b[2k] + 256 * b[2k+1]` over `k < n div 2 - 1`, modulo 65536. For odd
lengths this is the reading D5. -/
def Obligations.CksumByIndex : Prop :=
  ∀ b : List Byte, (cksum b).toNat =
    (((List.range (b.length / 2 - 1)).map fun k =>
      (b.getD (2 * k) 0).toNat + 256 * (b.getD (2 * k + 1) 0).toNat).sum) % 65536

/-- R58: the checksum of a buffer of fewer than four bytes is 0; at four bytes the first word is summed and the second is not. -/
def Obligations.CksumOfShortBufferIsZero : Prop :=
  (∀ b : List Byte, b.length < 4 → cksum b = 0) ∧ ∀ x y u v : Byte, cksum [x, y, u, v] = y ++ x

/-- R57 (reading D5): a dangling byte never changes the checksum. -/
def Obligations.DanglingByteChangesNothing : Prop :=
  ∀ (b : List Byte) (x : Byte), b.length % 2 = 0 → cksum (b ++ [x]) = cksum b

/-- R55, R65: the last complete word of an even-length buffer is never summed, whatever it is; the word before it is. -/
def Obligations.LastWordIsNeverSummed : Prop :=
  ∀ (b : List Byte) (x y u v : Byte), b.length % 2 = 0 →
    cksum (b ++ [x, y]) = cksum (b ++ [u, v]) ∧
    (cksum (b ++ [x, y, u, v])).toNat = ((cksum (b ++ [x, y])).toNat + (x.toNat + 256 * y.toNat)) % 65536

/-- R56: the checksum depends only on the multiset of the summed words, and adding into a 16-bit register that drops the carry
gives the same result as one sum reduced at the end. -/
def Obligations.ChecksumIgnoresWordOrder : Prop :=
  ∀ b c : List Byte,
    ((completeWords b).dropLast.Perm (completeWords c).dropLast → cksum b = cksum c) ∧
    cksum b = (completeWords b).dropLast.foldl (fun acc w => BitVec.ofNat 16 ((acc.toNat + w.toNat) % 65536)) 0

/-- R63 (D5 for odd lengths): after `CK_CLR` and any words that hold no further `CK_CLR` (pushes, reads, BT and SC commands,
illegal words), the CK registers are those of the bytes pushed, and a `CK_READ` there returns their `CKSUM`. -/
def Obligations.StreamComputesCksum : Prop :=
  ∀ (cmds : List Word) (s : State), (∀ cmd ∈ cmds, decode cmd ≠ .ok .ckClr) →
    ∃ t u, runWords (encode .ckClr :: cmds) s = .next t ∧ CkHolds t.ck (cmds.flatMap pushedByWord) ∧
      exec .ckRead t = .next u ∧
      u.responses = t.responses ++ [{ status := .ok, data := (cksum (cmds.flatMap pushedByWord)).setWidth 32 }]

/-- R114 (D5 for odd lengths): without `CK_CLR` new bytes continue the old stream; the CK registers are those of the
concatenation. -/
def Obligations.OmittedClearConcatenates : Prop :=
  ∀ (old : List Byte) (cmds : List Word) (s : State), CkHolds s.ck old →
    (∀ cmd ∈ cmds, decode cmd ≠ .ok .ckClr) →
    ∃ t, runWords cmds s = .next t ∧ CkHolds t.ck (old ++ cmds.flatMap pushedByWord)

/-- R49: `CK_SUM` and `CK_SUMW` answer `CKSUM` of the buffer with their last response, from every state, and touch no BT or SC
register. -/
def Obligations.CkSumPseudoCommands : Prop :=
  ∀ (b : List Byte) (s : State),
    (∃ t, runCommands (ckSum b) s = .next t ∧ t.bt = s.bt ∧ t.sc = s.sc ∧
      t.responses.getLast? = some { status := .ok, data := (cksum b).setWidth 32 }) ∧
    (∃ t, runCommands (ckSumW b) s = .next t ∧ t.bt = s.bt ∧ t.sc = s.sc ∧
      t.responses.getLast? = some { status := .ok, data := (cksum b).setWidth 32 })

/-! ### BcdTimeEncoder -/

/-- R70: the nibbles of `bcd2(v)` are the decimal digits of `v`, and `bcd2` is injective on 0 .. 99. -/
def Obligations.Bcd2ShowsDecimalDigits : Prop :=
  (∀ v : Nat, v ≤ 99 → highDigit (bcd2 v) = v / 10 ∧ lowDigit (bcd2 v) = v % 10 ∧ isBcd (bcd2 v) = true) ∧
  (∀ v w : Nat, v ≤ 99 → w ≤ 99 → bcd2 v = bcd2 w → v = w)

/-- R75: `BT_SET` of a legal selector writes the selected field only, drops the encoding, and leaves the rest, whatever the
value; with `cmd[23:20]` != 0 or `sel` > 6 it is illegal. -/
def Obligations.BtSetLoadsOneField : Prop :=
  (∀ (f : TimeField) (v : Half) (s : State), ∃ t, exec (.btSet (selOfField f) v) s = .next t ∧
    (∀ g, readField t.bt.fields g = if g = f then v else readField s.bt.fields g) ∧
    t.bt.valid = false ∧ outBytes t.bt.out = List.replicate 8 0 ∧
    t.ck = s.ck ∧ t.sc = s.sc ∧ t.port = s.port ∧ t.responses = s.responses ++ [{ status := .ok, data := 0 }]) ∧
  (∀ sel v, encode (.btSet sel v) = 0x20000000 + (sel.setWidth 32 <<< 16) + v.setWidth 32) ∧
  ∀ cmd : Word, cmd.extractLsb' 24 8 = 0x20 → (cmd.extractLsb' 20 4 ≠ 0 ∨ 6 < (cmd.extractLsb' 16 4).toNat) →
    AnsweredIllegal cmd

/-- R44 point 3, R75, R77, R88, R100: a selector out of range raises `E_ILLEGAL` in every state, before any other test, and
writes nothing. -/
def Obligations.SelectorOutOfRangeIsIllegal : Prop :=
  ∀ (sel : Nibble) (v : Half) (s : State),
    let answered : State := { s with responses := s.responses ++ [{ status := .illegal, data := 0 }] }
    (6 < sel.toNat → exec (.btSet sel v) s = .next answered) ∧
    (2 < sel.toNat → exec (.btRd sel) s = .next answered) ∧
    (4 < sel.toNat → exec (.scNext sel) s = .next answered)

/-- R74, R97: `BT_ENC` succeeds exactly when every field can be written in its digits; otherwise it answers `E_RANGE` and
writes nothing. -/
def Obligations.BtEncSucceedsExactlyInRange : Prop :=
  ∀ s : State, ∃ t r, exec .btEnc s = .next t ∧ t.responses = s.responses ++ [r] ∧ r.data = 0 ∧ t.port = s.port ∧
    (r.status = .ok ↔ s.bt.fields.year.toNat ≤ 9999 ∧ s.bt.fields.month.toNat ≤ 99 ∧ s.bt.fields.day.toNat ≤ 99 ∧
      s.bt.fields.hour.toNat ≤ 99 ∧ s.bt.fields.minute.toNat ≤ 99 ∧ s.bt.fields.second.toNat ≤ 99 ∧
      s.bt.fields.msec.toNat ≤ 999) ∧
    (r.status ≠ .ok → r.status = .range ∧ SameRegisters s t)

/-- R76, R71 (with D9 for byte 0 and D10 for the order of the bytes, readings the spec marks as its own): on fields in range
`BT_ENC` writes the eight bytes, sets `BT_VALID`, and leaves `BT_IN` and everything else. -/
def Obligations.BtEncWritesTheEightBytes : Prop :=
  ∀ s : State, inRange s.bt.fields = true →
    exec .btEnc s = .next { s with
      bt :=
        { fields := s.bt.fields
          out :=
            { b0 := BitVec.ofNat 8 (((s.bt.fields.msec.toNat / 100) <<< 4) ||| ((s.bt.fields.msec.toNat / 10) % 10))
              b1 := bcd2 s.bt.fields.second.toNat
              b2 := bcd2 s.bt.fields.minute.toNat
              b3 := bcd2 s.bt.fields.hour.toNat
              b4 := bcd2 s.bt.fields.day.toNat
              b5 := bcd2 s.bt.fields.month.toNat
              b6 := bcd2 (s.bt.fields.year.toNat % 100)
              b7 := bcd2 (s.bt.fields.year.toNat / 100) }
          valid := true }
      responses := s.responses ++ [{ status := .ok, data := 0 }] }

/-- R73, R70: after a successful `BT_ENC` the year pair shows the four digits of the year, and in each of the bytes 1 to 7 the
high nibble is the more significant digit of its field. -/
def Obligations.BtEncDigits : Prop :=
  ∀ s : State, inRange s.bt.fields = true → ∃ t, exec .btEnc s = .next t ∧
    highDigit t.bt.out.b6 = s.bt.fields.year.toNat / 10 % 10 ∧ lowDigit t.bt.out.b6 = s.bt.fields.year.toNat % 10 ∧
    highDigit t.bt.out.b7 = s.bt.fields.year.toNat / 1000 ∧ lowDigit t.bt.out.b7 = s.bt.fields.year.toNat / 100 % 10 ∧
    10 * highDigit t.bt.out.b1 + lowDigit t.bt.out.b1 = s.bt.fields.second.toNat ∧
    10 * highDigit t.bt.out.b2 + lowDigit t.bt.out.b2 = s.bt.fields.minute.toNat ∧
    10 * highDigit t.bt.out.b3 + lowDigit t.bt.out.b3 = s.bt.fields.hour.toNat ∧
    10 * highDigit t.bt.out.b4 + lowDigit t.bt.out.b4 = s.bt.fields.day.toNat ∧
    10 * highDigit t.bt.out.b5 + lowDigit t.bt.out.b5 = s.bt.fields.month.toNat ∧
    ∀ b ∈ outBytes t.bt.out, isBcd b = true

/-- R72 (reading D9, which the spec marks as its own): the sub-second byte shows the hundreds and tens digit of the
millisecond value; the units digit is not encoded. -/
def Obligations.SubSecondByteDigits : Prop :=
  ∀ s : State, inRange s.bt.fields = true → ∃ t, exec .btEnc s = .next t ∧
    highDigit t.bt.out.b0 = s.bt.fields.msec.toNat / 100 ∧ lowDigit t.bt.out.b0 = s.bt.fields.msec.toNat / 10 % 10

/-- R77, R33: `BT_RD` answers the selected four bytes, lowest index in `data[7:0]`, when `BT_VALID` = 1, and `E_NOTREADY`, data
0, when it is 0, for every selector including 0; it writes no state; with `cmd[23:4]` != 0 or `sel` > 2 it is illegal,
whatever `BT_VALID` is. -/
def Obligations.BtRdReadsThePayload : Prop :=
  (∀ s : State,
    let answer (d : Word) : State :=
      { s with responses := s.responses ++
          [if s.bt.valid = true then { status := .ok, data := d } else { status := .notReady, data := 0 }] }
    let c := Config.params.timeCsdw
    exec (.btRd 0) s = .next (answer (c.c3 ++ c.c2 ++ c.c1 ++ c.c0)) ∧
    exec (.btRd 1) s = .next (answer (s.bt.out.b3 ++ s.bt.out.b2 ++ s.bt.out.b1 ++ s.bt.out.b0)) ∧
    exec (.btRd 2) s = .next (answer (s.bt.out.b7 ++ s.bt.out.b6 ++ s.bt.out.b5 ++ s.bt.out.b4))) ∧
  (∀ sel, encode (.btRd sel) = 0x22000000 + sel.setWidth 32) ∧
  ∀ cmd : Word, cmd.extractLsb' 24 8 = 0x22 → (cmd.extractLsb' 4 20 ≠ 0 ∨ 2 < (cmd.extractLsb' 0 4).toNat) →
    AnsweredIllegal cmd

/-- R99, R117: once `BT_VALID` = 0, it stays 0 and every `BT_RD` is refused until a `BT_ENC` succeeds. A step takes it from 0 to 1
only where the word presented is `BT_ENC` and every field is in range; and it is still 0 after every run in which no `BT_ENC`
succeeds, that is, in which each `BT_ENC` among the words meets a field out of range when its turn comes. -/
def Obligations.NoEncodingUntilBtEncSucceeds : Prop :=
  (∀ s t : State, s.bt.valid = false → step s = .next t → t.bt.valid = true →
    (∃ later, s.port = .command (encode .btEnc) :: later) ∧ inRange s.bt.fields = true) ∧
  ∀ (cmds : List Word) (s : State), s.bt.valid = false →
    (∀ (before : List Word) (cmd : Word) (after : List Word), cmds = before ++ cmd :: after → decode cmd = .ok .btEnc →
      ∃ u, runWords before s = .next u ∧ inRange u.bt.fields = false) →
    ∃ t, runWords cmds s = .next t ∧ t.bt.valid = false ∧
      ∀ sel : Nibble, sel.toNat ≤ 2 →
        exec (.btRd sel) t = .next { t with responses := t.responses ++ [{ status := .notReady, data := 0 }] }

/-- R49, R78: `BT_TIME` of any fields in range and then `BT_PAYLOAD`, from every state: the last three data words, stored
little-endian, are the 12 bytes of the time payload (byte order D10, sub-second byte D9). -/
def Obligations.TimePayloadPseudoCommands : Prop :=
  ∀ (f : TimeFields) (s : State), inRange f = true →
    ∃ t rs, runCommands (btTime f ++ btPayload) s = .next t ∧ t.bt.fields = f ∧
      t.responses = s.responses ++ List.replicate 8 { status := .ok, data := 0 } ++ rs ∧
      (∀ r ∈ rs, r.status = .ok) ∧
      rs.flatMap (fun r => storedBytes r.data) =
        [Config.params.timeCsdw.c0, Config.params.timeCsdw.c1, Config.params.timeCsdw.c2, Config.params.timeCsdw.c3] ++
          outBytes (encodeTime f)

/-! ### SequenceCounters -/

/-- R88, R87, R86: `SC_NEXT` of a counter that holds at most its maximum (R24 point 5; log 8 on other states) returns the value
before the advance, which is below the modulus; the new value is 0 after `MAX[i]`, else one more, that is `(v + 1) mod MOD[i]`;
every other counter and register is as before; with `cmd[23:4]` != 0 or `sel` > 4 it is illegal and no counter moves. -/
def Obligations.ScNextReturnsThenAdvances : Prop :=
  (∀ (i : CounterId) (s : State), readCounter s.sc i ≤ counterMax Config.params i →
    ∃ t r, exec (.scNext (selOfCounter i)) s = .next t ∧ t.responses = s.responses ++ [r] ∧ r.status = .ok ∧
      r.data.toNat = readCounter s.sc i ∧ r.data.toNat < counterMod Config.params i ∧
      readCounter t.sc i =
        (if readCounter s.sc i = counterMax Config.params i then 0 else readCounter s.sc i + 1) ∧
      readCounter t.sc i = (readCounter s.sc i + 1) % counterMod Config.params i ∧
      (∀ k, k ≠ i → readCounter t.sc k = readCounter s.sc k) ∧ t.ck = s.ck ∧ t.bt = s.bt ∧ t.port = s.port) ∧
  (∀ sel, encode (.scNext sel) = 0x30000000 + sel.setWidth 32) ∧
  ∀ cmd : Word, cmd.extractLsb' 24 8 = 0x30 → (cmd.extractLsb' 4 20 ≠ 0 ∨ 4 < (cmd.extractLsb' 0 4).toNat) →
    AnsweredIllegal cmd

/-- R86: the moduli and the largest values, for either admitted value of `TFC_MOD`; every modulus fits its register. `MAX[i]` is
the largest value counter `i` ever holds or returns: after reset it holds no more, no step takes it above, `SC_NEXT i` returns no
more, and after `MAX[i]` draws from reset it holds `MAX[i]` and returns it. -/
def Obligations.CounterModuli : Prop :=
  (∀ p : Params,
    counterMod p .outer = 256 ∧ counterMod p .iena = 65536 ∧ counterMod p .seqcnt = 256 ∧ counterMod p .time = 256 ∧
    counterMod p .tfc = p.tfcMod.value ∧ (p.tfcMod.value = 16777215 ∨ p.tfcMod.value = 16777216) ∧
    counterMax p .outer = 255 ∧ counterMax p .iena = 65535 ∧ counterMax p .seqcnt = 255 ∧ counterMax p .time = 255 ∧
    (counterMax p .tfc = 16777214 ∨ counterMax p .tfc = 16777215) ∧ (∀ i, counterMax p i = counterMod p i - 1) ∧
    counterMod p .tfc ≤ 2 ^ 24) ∧
  ∀ i : CounterId,
    let max := counterMax Config.params i
    let next : Instr := .scNext (selOfCounter i)
    readCounter State.reset.sc i ≤ max ∧
    (∀ s : State, readCounter s.sc i ≤ max →
      (∀ t, step s = .next t → readCounter t.sc i ≤ max) ∧
      ∃ t r, exec next s = .next t ∧ t.responses = s.responses ++ [r] ∧ r.data.toNat ≤ max) ∧
    ∃ t u r, runCommands (List.replicate max next) State.reset = .next t ∧ readCounter t.sc i = max ∧
      exec next t = .next u ∧ u.responses = t.responses ++ [r] ∧ r.data.toNat = max

/-- R87, R88: under either admitted modulus counter 4 at its maximum is returned and wraps to 0; with `TFC_MOD` = 16777215 the
maximum is 16777214 and a canonical counter never returns 0xFFFFFF, with 16777216 the maximum is 0xFFFFFF. -/
def Obligations.TransportCounterBoundary : Prop :=
  ∀ (p : Params) (s : State), readCounter s.sc .tfc ≤ counterMax p .tfc →
    (readCounter s.sc .tfc = counterMax p .tfc → (advanceCounter p .tfc s).sc.tfc = 0) ∧
    (readCounter s.sc .tfc < counterMax p .tfc → (advanceCounter p .tfc s).sc.tfc = s.sc.tfc + 1) ∧
    (advanceCounter p .tfc s).responses = s.responses ++ [{ status := .ok, data := s.sc.tfc.setWidth 32 }] ∧
    (p.tfcMod = .literal → s.sc.tfc ≠ 0xFFFFFF ∧ counterMax p .tfc = 16777214) ∧
    (p.tfcMod = .wholeRange → counterMax p .tfc = 0xFFFFFF)

/-- R90, R89: from a state where counter `i` is 0, after any words (other commands and illegal words among them) of which `k` are
`SC_NEXT i`, the counter holds `k mod MOD[i]`, and the next `SC_NEXT i` returns that. -/
def Obligations.CounterSequence : Prop :=
  ∀ (i : CounterId) (cmds : List Word) (s : State), readCounter s.sc i = 0 →
    ∃ t u r, runWords cmds s = .next t ∧
      readCounter t.sc i = drawsOf i cmds % counterMod Config.params i ∧
      exec (.scNext (selOfCounter i)) t = .next u ∧ u.responses = t.responses ++ [r] ∧
      r.data.toNat = drawsOf i cmds % counterMod Config.params i

/-! ### Whole-machine rules -/

/-- R24, R26: the reset state is canonical, under either admitted parameter. -/
def Obligations.ResetIsCanonical : Prop :=
  ∀ p : Params, Canonical p State.reset

/-- R24: every step keeps the canonical form of the state: commands, illegal words, resets, and steps with nothing presented. -/
def Obligations.StepKeepsCanonical : Prop :=
  ∀ s t : State, Canonical Config.params s → step s = .next t → Canonical Config.params t

/-- R24 point 4: in a canonical state with `BT_VALID` = 1 every nibble of `BT_OUT` is at most 9, and a `BT_ENC` changes no
register. -/
def Obligations.ValidEncodingIsBcd : Prop :=
  ∀ s : State, Canonical Config.params s → s.bt.valid = true →
    (∀ b ∈ outBytes s.bt.out, isBcd b = true) ∧
    exec .btEnc s = .next { s with responses := s.responses ++ [{ status := .ok, data := 0 }] }

/-- R18: the three units share no state: a command changes no register of another unit, `CK_READ` and `BT_RD` change none at
all, `BT_ENC` does not change `BT_IN`, and `SC_NEXT` changes no counter but the selected one. -/
def Obligations.AccessTable : Prop :=
  ∀ (i : Instr) (s : State), ∃ t, exec i s = .next t ∧ t.port = s.port ∧
    (unitOf i ≠ .ck → t.ck = s.ck) ∧ (unitOf i ≠ .bt → t.bt = s.bt) ∧ (unitOf i ≠ .sc → t.sc = s.sc) ∧
    (i = .ckRead → t.ck = s.ck) ∧ ((∃ sel, i = .btRd sel) → t.bt = s.bt) ∧ (i = .btEnc → t.bt.fields = s.bt.fields) ∧
    (∀ sel v f, i = .btSet sel v → selOfField f ≠ sel → readField t.bt.fields f = readField s.bt.fields f) ∧
    (∀ sel k, i = .scNext sel → selOfCounter k ≠ sel → readCounter t.sc k = readCounter s.sc k)

/-- R18, R122: the host may interleave CK, BT and SC commands freely: after any words the registers of each unit are those left
by that unit's own commands alone. -/
def Obligations.UnitsDoNotInterfere : Prop :=
  ∀ (cmds : List Word) (s : State), ∃ t c b n,
    runWords cmds s = .next t ∧
    runWords (cmds.filter (ofUnit .ck)) s = .next c ∧ t.ck = c.ck ∧
    runWords (cmds.filter (ofUnit .bt)) s = .next b ∧ t.bt = b.bt ∧
    runWords (cmds.filter (ofUnit .sc)) s = .next n ∧ t.sc = n.sc

/-- R18, R27: what a command of a unit does and answers depends on that unit's registers alone. -/
def Obligations.ResponseDependsOnOwnUnit : Prop :=
  ∀ (i : Instr) (s s' : State),
    (unitOf i = .ck → s.ck = s'.ck) → (unitOf i = .bt → s.bt = s'.bt) → (unitOf i = .sc → s.sc = s'.sc) →
    ∃ t t' r, exec i s = .next t ∧ exec i s' = .next t' ∧
      t.responses = s.responses ++ [r] ∧ t'.responses = s'.responses ++ [r] ∧
      (unitOf i = .ck → t.ck = t'.ck) ∧ (unitOf i = .bt → t.bt = t'.bt) ∧ (unitOf i = .sc → t.sc = t'.sc)

/-- R37: `CK_CLR`, `BT_ENC`, `BT_SET`, and the reads `CK_READ` and `BT_RD` may be repeated: the second time changes no register
and gives the same response. -/
def Obligations.RepeatableCommands : Prop :=
  ∀ (i : Instr) (s : State), (i = .ckClr ∨ i = .btEnc ∨ i = .ckRead ∨ (∃ k, i = .btRd k) ∨ ∃ f v, i = .btSet f v) →
    ∃ t u r, exec i s = .next t ∧ exec i t = .next u ∧ SameRegisters t u ∧
      t.responses = s.responses ++ [r] ∧ u.responses = s.responses ++ [r, r]

/-- R116: two paths that each use their own counter may interleave: `SC_NEXT` of two different counters in either order leaves
the same counters, and each path gets the same value. -/
def Obligations.CountersCommute : Prop :=
  ∀ (i k : CounterId) (s : State), i ≠ k →
    ∃ t u ri rk, runCommands [.scNext (selOfCounter i), .scNext (selOfCounter k)] s = .next t ∧
      runCommands [.scNext (selOfCounter k), .scNext (selOfCounter i)] s = .next u ∧ SameRegisters t u ∧
      t.responses = s.responses ++ [ri, rk] ∧ u.responses = s.responses ++ [rk, ri]

/-- R111: after reset CK is as after `CK_CLR`; `CK_READ` returns 0; every `BT_RD` is refused; `BT_ENC` succeeds with eight
bytes 0x00; every `SC_NEXT` returns 0. -/
def Obligations.ConsequencesOfReset : Prop :=
  let answered (r : Response) : List Response := [r]
  (∀ s : State, ∃ t, exec .ckClr s = .next t ∧ t.ck = State.reset.ck) ∧
  (∃ t, exec .ckRead State.reset = .next t ∧ t.responses = answered { status := .ok, data := 0 }) ∧
  (∀ sel : Nibble, sel.toNat ≤ 2 →
    ∃ t, exec (.btRd sel) State.reset = .next t ∧ t.responses = answered { status := .notReady, data := 0 }) ∧
  (∃ t, exec .btEnc State.reset = .next t ∧ t.responses = answered { status := .ok, data := 0 } ∧
    outBytes t.bt.out = List.replicate 8 0 ∧ t.bt.valid = true) ∧
  (∀ i, ∃ t, exec (.scNext (selOfCounter i)) State.reset = .next t ∧ t.responses = answered { status := .ok, data := 0 })
end

