-- ==== Sys2Proof/Laws/BcdTime.lean ====
section
/-! SUPPORT. The range test in its two forms (R74, R76), and the word of four bytes (R33). -/

namespace Sys2Proof.Machine

theorem fieldInRange_iff (t : TimeFields) (f : TimeField) :
    fieldInRange t f = true ↔ (readField t f).toNat ≤ fieldLimit f := by simp [fieldInRange]

theorem firstOutOfRange_none_iff (t : TimeFields) : firstOutOfRange t = none ↔ inRange t = true := by
  simp [firstOutOfRange, inRange, List.find?_eq_none, List.all_eq_true]

theorem inRange_iff (t : TimeFields) :
    inRange t = true ↔ t.year.toNat ≤ 9999 ∧ t.month.toNat ≤ 99 ∧ t.day.toNat ≤ 99 ∧ t.hour.toNat ≤ 99 ∧
      t.minute.toNat ≤ 99 ∧ t.second.toNat ≤ 99 ∧ t.msec.toNat ≤ 999 := by
  simp [inRange, allFields, fieldInRange_iff]
  rfl

/-- The field `BT_ENC` reports is one that fails the test (R76). -/
theorem firstOutOfRange_some {t : TimeFields} {f : TimeField} (h : firstOutOfRange t = some f) :
    fieldLimit f < (readField t f).toNat := by
  have := List.find?_some h
  simpa [fieldInRange] using this

theorem execBtEnc_inRange {s : State} (h : inRange s.bt.fields = true) :
    execBtEnc s =
      .next (respond 0 { s with bt := { s.bt with out := encodeTime s.bt.fields, valid := validAfterEncode } }) := by
  rw [execBtEnc, (firstOutOfRange_none_iff _).mpr h]

theorem execBtEnc_outOfRange {s : State} (h : inRange s.bt.fields = false) :
    ∃ f, execBtEnc s = .next (raiseError (.range f) s) := by
  match hf : firstOutOfRange s.bt.fields with
  | none => rw [(firstOutOfRange_none_iff _).mp hf] at h; exact Bool.noConfusion h
  | some f => exact ⟨f, by rw [execBtEnc, hf]⟩

end Sys2Proof.Machine
end

