-- ==== Sys2Proof/Laws/Checksum.lean ====
section
/-! SUPPORT. The push of one byte in its two cases (R60), and the words of a byte list (R55, R57). -/

namespace Sys2Proof.Machine

theorem pushByte_first (b : Byte) (c : CkRegs) (h : c.lv = false) :
    pushByte b c = { c with low := b, lv := true } := by simp [pushByte, h, lvAfterByte]

theorem pushByte_second (b : Byte) (c : CkRegs) (h : c.lv = true) :
    pushByte b c = { acc := if c.hv then c.acc + c.hold else c.acc, hold := littleEndianWord c.low b, hv := true,
                     low := 0, lv := false } := by
  simp [pushByte, h, lvAfterByte, hvAfterByte]

/-- `CK_LV` toggles with every byte (R60). -/
@[simp] theorem pushByte_lv (b : Byte) (c : CkRegs) : (pushByte b c).lv = !c.lv := by
  cases h : c.lv <;> simp [pushByte, h, lvAfterByte]

@[simp] theorem completeWords_nil : completeWords [] = [] := rfl
@[simp] theorem completeWords_one (x : Byte) : completeWords [x] = [] := rfl
@[simp] theorem completeWords_cons (x y : Byte) (r : List Byte) :
    completeWords (x :: y :: r) = littleEndianWord x y :: completeWords r := rfl

theorem littleEndianWord_toNat (x y : Byte) : (littleEndianWord x y).toNat = x.toNat + 256 * y.toNat := by
  have hx := x.isLt
  simp only [littleEndianWord, BitVec.toNat_append]
  rw [Nat.shiftLeft_eq, ← Nat.shiftLeft_eq, ← Nat.shiftLeft_add_eq_or_of_lt hx, Nat.shiftLeft_eq]
  omega

@[simp] theorem completeWords_length (b : List Byte) : (completeWords b).length = b.length / 2 := by
  induction b using completeWords.induct with
  | case1 x y r ih => simp [ih]; omega
  | case2 b h =>
    match b, h with
    | [], _ => rfl
    | [_], _ => simp
    | x :: y :: r, h => exact absurd rfl (h x y r)

/-- Two more bytes at an even position make one more word. -/
theorem completeWords_append_pair (b : List Byte) (x y : Byte) (h : b.length % 2 = 0) :
    completeWords (b ++ [x, y]) = completeWords b ++ [littleEndianWord x y] := by
  induction b using completeWords.induct with
  | case1 u v r ih => simpa using ih (by simp at h; omega)
  | case2 b hb =>
    match b, hb with
    | [], _ => rfl
    | [_], _ => simp at h
    | x :: y :: r, hb => exact absurd rfl (hb x y r)

end Sys2Proof.Machine
end

