-- ==== Sys2Proof/Laws/Registers.lean ====
section
/-! SUPPORT. The register files (R14, R17) and the selectors that name their elements (R45): a read after a write gives the
written value, every other element is as before, and a selector names an element exactly when it is legal. -/

namespace Sys2Proof.Machine

@[simp] theorem readField_writeField_same (t : TimeFields) (f : TimeField) (v : Half) :
    readField (writeField t f v) f = v := by cases f <;> rfl

@[simp] theorem readField_writeField_other (t : TimeFields) {f g : TimeField} (v : Half) (h : g ≠ f) :
    readField (writeField t f v) g = readField t g := by cases f <;> cases g <;> first | rfl | exact absurd rfl h

@[simp] theorem readField_zero (f : TimeField) : readField TimeFields.zero f = 0 := by cases f <;> rfl

@[simp] theorem readCounter_reset (i : CounterId) : readCounter ScRegs.reset i = 0 := by cases i <;> rfl

/-- The width of a counter (R17). -/
def counterWidth : CounterId → Nat
  | .outer => 8
  | .iena => 16
  | .seqcnt => 8
  | .time => 8
  | .tfc => 24

theorem readCounter_lt_width (c : ScRegs) (i : CounterId) : readCounter c i < 2 ^ counterWidth i := by
  cases i <;> exact BitVec.isLt _

theorem readCounter_lt_word (c : ScRegs) (i : CounterId) : readCounter c i < 2 ^ 32 :=
  lt_of_lt_of_le (readCounter_lt_width c i) (by cases i <;> decide)

theorem readCounter_writeCounter_same (c : ScRegs) (i : CounterId) (v : Nat) :
    readCounter (writeCounter c i v) i = v % 2 ^ counterWidth i := by
  cases i <;> exact BitVec.toNat_ofNat _ _

@[simp] theorem readCounter_writeCounter_other (c : ScRegs) {i k : CounterId} (v : Nat) (h : k ≠ i) :
    readCounter (writeCounter c i v) k = readCounter c k := by
  cases i <;> cases k <;> first | rfl | exact absurd rfl h

@[simp] theorem timeFieldOfSel_selOfField (f : TimeField) : timeFieldOfSel (selOfField f) = some f := by cases f <;> rfl

@[simp] theorem counterOfSel_selOfCounter (i : CounterId) : counterOfSel (selOfCounter i) = some i := by cases i <;> rfl

theorem timeFieldOfSel_none_iff (sel : Nibble) : timeFieldOfSel sel = none ↔ 6 < sel.toNat := by
  revert sel; decide

theorem payloadWordOfSel_none_iff (sel : Nibble) : payloadWordOfSel sel = none ↔ 2 < sel.toNat := by
  revert sel; decide

theorem counterOfSel_none_iff (sel : Nibble) : counterOfSel sel = none ↔ 4 < sel.toNat := by
  revert sel; decide

/-- A selector that names a field is that field's selector. -/
theorem timeFieldOfSel_some {sel : Nibble} {f : TimeField} (h : timeFieldOfSel sel = some f) : sel = selOfField f := by
  revert sel f; decide

/-- A selector that names a counter is that counter's selector. -/
theorem counterOfSel_some {sel : Nibble} {i : CounterId} (h : counterOfSel sel = some i) : sel = selOfCounter i := by
  revert sel i; decide

end Sys2Proof.Machine
end

