-- ==== Sys2Proof/Laws/Counters.lean ====
section
/-! SUPPORT. The law of `next()` (R87) and what one `SC_NEXT` leaves (R88, R89). -/

namespace Sys2Proof.Machine

theorem counterMod_pos (p : Params) (i : CounterId) : 0 < counterMod p i := by
  cases i <;> simp only [counterMod, TfcModulus.value, Nat.ofNat_pos]
  split <;> decide

theorem counterMod_le_width (p : Params) (i : CounterId) : counterMod p i ≤ 2 ^ counterWidth i := by
  cases i <;> simp [counterMod, counterWidth, TfcModulus.value]
  split <;> decide

theorem counterMax_succ (p : Params) (i : CounterId) : counterMax p i + 1 = counterMod p i :=
  Nat.sub_add_cancel (counterMod_pos p i)

/-- The two forms of the law (R87) agree on every value a counter may hold. -/
theorem nextCount_eq_mod (p : Params) (i : CounterId) (v : Nat) (h : v ≤ counterMax p i) :
    nextCount p i v = (v + 1) % counterMod p i := by
  have hm := counterMax_succ p i
  unfold nextCount
  split
  · rename_i hv; rw [hv, hm, Nat.mod_self]
  · rw [Nat.mod_eq_of_lt (by omega)]

theorem nextCount_lt (p : Params) (i : CounterId) (v : Nat) (h : v ≤ counterMax p i) :
    nextCount p i v < counterMod p i := by
  rw [nextCount_eq_mod p i v h]; exact Nat.mod_lt _ (counterMod_pos p i)

theorem advanceCounter_readCounter (p : Params) (i : CounterId) (s : State) (h : readCounter s.sc i ≤ counterMax p i) :
    readCounter (advanceCounter p i s).sc i = (readCounter s.sc i + 1) % counterMod p i := by
  rw [← nextCount_eq_mod p i _ h]
  show readCounter (writeCounter _ _ _) i = _
  rw [readCounter_writeCounter_same,
    Nat.mod_eq_of_lt (lt_of_lt_of_le (nextCount_lt p i _ h) (counterMod_le_width p i))]

theorem advanceCounter_other (p : Params) {i k : CounterId} (s : State) (h : k ≠ i) :
    readCounter (advanceCounter p i s).sc k = readCounter s.sc k := readCounter_writeCounter_other _ _ h

end Sys2Proof.Machine
end

