-- ==== Sys2Proof/Laws/Decode.lean ====
section
/-! SUPPORT. What each format's decoder answers (R41), once. -/

namespace Sys2Proof

theorem decodeZ_ok_iff (arg : BitVec 24) (i j : Instr) : decodeZ arg i = .ok j ↔ arg = 0 ∧ j = i := by
  by_cases h : arg = 0
  · simpa [decodeZ, h] using eq_comm
  · rw [decodeZ, if_neg h]; exact ⟨nofun, fun hj => absurd hj.1 h⟩

theorem decodeB_ok_iff (arg : BitVec 24) (mk : Byte → Instr) (j : Instr) :
    decodeB arg mk = .ok j ↔ arg.extractLsb' 8 16 = 0 ∧ j = mk (arg.extractLsb' 0 8) := by
  by_cases h : arg.extractLsb' 8 16 = 0
  · simpa [decodeB, h] using eq_comm
  · rw [decodeB, if_neg h]; exact ⟨nofun, fun hj => absurd hj.1 h⟩

theorem decodeH_ok_iff (arg : BitVec 24) (mk : Half → Instr) (j : Instr) :
    decodeH arg mk = .ok j ↔ arg.extractLsb' 16 8 = 0 ∧ j = mk (arg.extractLsb' 0 16) := by
  by_cases h : arg.extractLsb' 16 8 = 0
  · simpa [decodeH, h] using eq_comm
  · rw [decodeH, if_neg h]; exact ⟨nofun, fun hj => absurd hj.1 h⟩

theorem decodeS_ok_iff (arg : BitVec 24) (legal : Nibble → Bool) (mk : Nibble → Instr) (j : Instr) :
    decodeS arg legal mk = .ok j ↔
      arg.extractLsb' 4 20 = 0 ∧ legal (arg.extractLsb' 0 4) = true ∧ j = mk (arg.extractLsb' 0 4) := by
  by_cases h : arg.extractLsb' 4 20 = 0
  · by_cases hl : legal (arg.extractLsb' 0 4) = true
    · simpa [decodeS, h, hl] using eq_comm
    · simp [decodeS, h, hl]
  · rw [decodeS, if_neg h]; exact ⟨nofun, fun hj => absurd hj.1 h⟩

theorem decodeF_ok_iff (arg : BitVec 24) (legal : Nibble → Bool) (mk : Nibble → Half → Instr) (j : Instr) :
    decodeF arg legal mk = .ok j ↔
      arg.extractLsb' 20 4 = 0 ∧ legal (arg.extractLsb' 16 4) = true ∧
        j = mk (arg.extractLsb' 16 4) (arg.extractLsb' 0 16) := by
  by_cases h : arg.extractLsb' 20 4 = 0
  · by_cases hl : legal (arg.extractLsb' 16 4) = true
    · simpa [decodeF, h, hl] using eq_comm
    · simp [decodeF, h, hl]
  · rw [decodeF, if_neg h]; exact ⟨nofun, fun hj => absurd hj.1 h⟩

/-- A command word is its two fields, one above the other (R40). -/
theorem opField_append_argField (cmd : Word) : (opField cmd ++ argField cmd : Word) = cmd := by
  apply BitVec.eq_of_getLsbD_eq
  intro k hk
  simp only [opField, argField, BitVec.getLsbD_append, BitVec.getLsbD_extractLsb']
  by_cases h : k < 24
  · simp [h]
  · simp [h, Nat.add_sub_cancel' (Nat.le_of_not_lt h)]; omega

end Sys2Proof
end

