-- ==== Sys2Proof/Laws/PerInstr.lean ====
section
/-! SUPPORT. Family `TableRow`: every command's word matches its own row of the opcode map (R43), for every operand. -/

namespace Sys2Proof.Laws.TableRow

/-- The `mask` of a command's row (R43). -/
def mask : Instr → Word
  | .ckClr => 0xFFFFFFFF
  | .ckByte _ => 0xFFFFFF00
  | .ckWord _ => 0xFFFF0000
  | .ckRead => 0xFFFFFFFF
  | .btSet _ _ => 0xFFF00000
  | .btEnc => 0xFFFFFFFF
  | .btRd _ => 0xFFFFFFF0
  | .scNext _ => 0xFFFFFFF0

/-- The `match` of a command's row (R43). -/
def pattern : Instr → Word
  | .ckClr => 0x10000000
  | .ckByte _ => 0x11000000
  | .ckWord _ => 0x12000000
  | .ckRead => 0x13000000
  | .btSet _ _ => 0x20000000
  | .btEnc => 0x21000000
  | .btRd _ => 0x22000000
  | .scNext _ => 0x30000000

/-- The command's word, under its row's mask, is its row's match (R43). -/
def Statement (i : Instr) : Prop := encode i &&& mask i = pattern i

/-- A mask of ones over zeros keeps the upper part and drops the lower. -/
theorem append_and_mask {n m : Nat} (hi : BitVec n) (lo : BitVec m) :
    (hi ++ lo) &&& (BitVec.allOnes n ++ 0#m) = hi ++ 0#m := by
  rw [BitVec.and_append, BitVec.and_allOnes, BitVec.and_zero]

theorem ckClr : Statement .ckClr := by unfold Statement; decide

theorem ckByte (imm8 : Byte) : Statement (.ckByte imm8) := append_and_mask (n := 24) (0x11#8 ++ 0#16) imm8

theorem ckWord (imm16 : Half) : Statement (.ckWord imm16) := append_and_mask (n := 16) (0x12#8 ++ 0#8) imm16

theorem ckRead : Statement .ckRead := by unfold Statement; decide

theorem btSet (sel : Nibble) (imm16 : Half) : Statement (.btSet sel imm16) := by
  have h := append_and_mask (0x20#8 ++ 0#4) (sel ++ imm16)
  rwa [BitVec.append_assoc', BitVec.cast_eq] at h

theorem btEnc : Statement .btEnc := by unfold Statement; decide

theorem btRd (sel : Nibble) : Statement (.btRd sel) := append_and_mask (n := 28) (0x22#8 ++ 0#20) sel

theorem scNext (sel : Nibble) : Statement (.scNext sel) := append_and_mask (n := 28) (0x30#8 ++ 0#20) sel

end Sys2Proof.Laws.TableRow
end

