-- ==== Sys2Proof/Laws/State.lean ====
section
/-! SUPPORT. One lemma per field per update of the state: answering, raising, resetting, and the port. -/

namespace Sys2Proof.Machine

variable (s : State) (v : Word) (e : BlockError) (cmds : List Word)

@[simp] theorem respond_ck : (respond v s).ck = s.ck := rfl
@[simp] theorem respond_bt : (respond v s).bt = s.bt := rfl
@[simp] theorem respond_sc : (respond v s).sc = s.sc := rfl
@[simp] theorem respond_port : (respond v s).port = s.port := rfl
@[simp] theorem respond_responses : (respond v s).responses = s.responses ++ [{ status := .ok, data := v }] := rfl

@[simp] theorem raiseError_ck : (raiseError e s).ck = s.ck := rfl
@[simp] theorem raiseError_bt : (raiseError e s).bt = s.bt := rfl
@[simp] theorem raiseError_sc : (raiseError e s).sc = s.sc := rfl
@[simp] theorem raiseError_port : (raiseError e s).port = s.port := rfl
@[simp] theorem raiseError_responses :
    (raiseError e s).responses = s.responses ++ [{ status := errorStatus e, data := 0 }] := rfl

@[simp] theorem resetBlock_ck : (resetBlock s).ck = CkRegs.cleared := rfl
@[simp] theorem resetBlock_bt : (resetBlock s).bt = BtRegs.reset := rfl
@[simp] theorem resetBlock_sc : (resetBlock s).sc = ScRegs.reset := rfl
@[simp] theorem resetBlock_port : (resetBlock s).port = s.port := rfl
@[simp] theorem resetBlock_responses : (resetBlock s).responses = s.responses := rfl

@[simp] theorem takeEvent_ck : (takeEvent s).ck = s.ck := rfl
@[simp] theorem takeEvent_bt : (takeEvent s).bt = s.bt := rfl
@[simp] theorem takeEvent_sc : (takeEvent s).sc = s.sc := rfl
@[simp] theorem takeEvent_port : (takeEvent s).port = s.port.tail := rfl
@[simp] theorem takeEvent_responses : (takeEvent s).responses = s.responses := rfl

@[simp] theorem present_ck : (present cmds s).ck = s.ck := rfl
@[simp] theorem present_bt : (present cmds s).bt = s.bt := rfl
@[simp] theorem present_sc : (present cmds s).sc = s.sc := rfl
@[simp] theorem present_port : (present cmds s).port = cmds.map .command ++ s.port := rfl
@[simp] theorem present_responses : (present cmds s).responses = s.responses := rfl

/-- The first word presented is taken and the rest are still presented. -/
@[simp] theorem takeEvent_present (cmd : Word) : takeEvent (present (cmd :: cmds) s) = present cmds s := rfl

@[simp] theorem present_nil : present [] s = s := rfl

theorem withFetchWord_eq (nbits w : Nat) : s.withFetchWord nbits w = present [tableWord nbits w] s := rfl

end Sys2Proof.Machine
end

