-- ==== Sys2Proof/Laws/Step.lean ====
section
/-! SUPPORT. What a command and a step can do, said once: the later proofs cite these and unfold neither `exec` nor `step`. -/

namespace Sys2Proof.Machine

/-- What a command can leave: it answers OK and has written registers of its own unit only, or it raises one error and has
written nothing (R8, R18, R96). -/
theorem exec_cases (i : Instr) (s : State) :
    (∃ v c, unitOf i = .ck ∧ exec i s = .next (respond v { s with ck := c })) ∨
    (∃ v b, unitOf i = .bt ∧ exec i s = .next (respond v { s with bt := b })) ∨
    (∃ v n, unitOf i = .sc ∧ exec i s = .next (respond v { s with sc := n })) ∨
    (∃ e, exec i s = .next (raiseError e s)) := by
  cases i with
  | ckClr => exact .inl ⟨_, _, rfl, rfl⟩
  | ckByte b => exact .inl ⟨_, _, rfl, rfl⟩
  | ckWord h => exact .inl ⟨_, _, rfl, rfl⟩
  | ckRead => exact .inl ⟨_, s.ck, rfl, rfl⟩
  | btSet sel v =>
    simp only [exec, execBtSet]
    split
    · exact .inr (.inl ⟨_, _, rfl, rfl⟩)
    · exact .inr (.inr (.inr ⟨_, rfl⟩))
  | btEnc =>
    simp only [exec, execBtEnc]
    split
    · exact .inr (.inr (.inr ⟨_, rfl⟩))
    · exact .inr (.inl ⟨_, _, rfl, rfl⟩)
  | btRd sel =>
    simp only [exec, execBtRd, readPayload]
    split
    · split
      · exact .inr (.inl ⟨_, s.bt, rfl, rfl⟩)
      · exact .inr (.inr (.inr ⟨_, rfl⟩))
    · exact .inr (.inr (.inr ⟨_, rfl⟩))
  | scNext sel =>
    simp only [exec, execScNext, advanceCounter]
    split
    · exact .inr (.inr (.inl ⟨_, _, rfl, rfl⟩))
    · exact .inr (.inr (.inr ⟨_, rfl⟩))

/-- A step with a word presented is the command's effect, or `E_ILLEGAL` (R6, R46). -/
theorem step_command {s : State} {cmd : Word} {later : List HostEvent} (h : s.port = .command cmd :: later) :
    step s = match decode cmd with
      | .ok i => exec i (takeEvent s)
      | .error _ => .next (raiseError .illegal (takeEvent s)) := by
  simp only [step, fetch, h]
  cases decode cmd <;> rfl

/-- Every step is one of these four (R6, R101, R110). -/
theorem step_cases (s : State) :
    (s.port = [] ∧ step s = .next s) ∨
    (∃ ws later, s.port = .reset ws :: later ∧ step s = .next (resetBlock (takeEvent s))) ∨
    (∃ cmd later i, s.port = .command cmd :: later ∧ decode cmd = .ok i ∧ step s = exec i (takeEvent s)) ∨
    (∃ cmd later e, s.port = .command cmd :: later ∧ decode cmd = .error e ∧
      step s = .next (raiseError .illegal (takeEvent s))) := by
  match h : s.port with
  | [] => exact .inl ⟨rfl, by simp [step, fetch, h]⟩
  | .reset ws :: later => exact .inr (.inl ⟨ws, later, rfl, by simp [step, fetch, h]⟩)
  | .command cmd :: later =>
    match hd : decode cmd with
    | .ok i => exact .inr (.inr (.inl ⟨cmd, later, i, rfl, hd, by rw [step_command h, hd]⟩))
    | .error e => exact .inr (.inr (.inr ⟨cmd, later, e, rfl, hd, by rw [step_command h, hd]⟩))

/-! #### Runs of words as a fold of one function -/

/-- The state an outcome continues in; a fault or refusal would leave the state as it was. -/
def nextOr (s : State) : Host.Outcome State Fault Refusal → State
  | .next t => t
  | .fault _ => s
  | .refused _ => s

/-- What one presented word leaves (R46): the command's effect, or `E_ILLEGAL`. -/
def wordState (s : State) (cmd : Word) : State :=
  match decode cmd with
  | .ok i => nextOr s (exec i s)
  | .error _ => raiseError .illegal s

@[simp] theorem nextOr_next (s t : State) : nextOr s (.next t) = t := rfl

theorem wordState_legal {cmd : Word} {i : Instr} (s : State) (h : decode cmd = .ok i) :
    wordState s cmd = nextOr s (exec i s) := by rw [wordState, h]

theorem wordState_illegal {cmd : Word} {e : DecodeError} (s : State) (h : decode cmd = .error e) :
    wordState s cmd = raiseError .illegal s := by rw [wordState, h]

theorem exec_eq_next (i : Instr) (s : State) : exec i s = .next (nextOr s (exec i s)) := by
  rcases exec_cases i s with ⟨_, _, _, h⟩ | ⟨_, _, _, h⟩ | ⟨_, _, _, h⟩ | ⟨_, h⟩ <;> rw [h] <;> rfl

/-- A command neither reads nor writes what the host has still to present (R27). -/
theorem exec_withPort (i : Instr) (s : State) (q : List HostEvent) :
    nextOr { s with port := q } (exec i { s with port := q }) = { nextOr s (exec i s) with port := q } := by
  cases i with
  | ckClr => rfl
  | ckByte b => rfl
  | ckWord h => rfl
  | ckRead => rfl
  | btSet sel v => simp only [exec, execBtSet]; cases timeFieldOfSel sel <;> rfl
  | btEnc => simp only [exec, execBtEnc]; cases firstOutOfRange s.bt.fields <;> rfl
  | btRd sel =>
    simp only [exec, execBtRd, readPayload]
    cases payloadWordOfSel sel with
    | none => rfl
    | some k => cases s.bt.valid <;> rfl
  | scNext sel => simp only [exec, execScNext]; cases counterOfSel sel <;> rfl

theorem wordState_withPort (cmd : Word) (s : State) (q : List HostEvent) :
    wordState { s with port := q } cmd = { wordState s cmd with port := q } := by
  unfold wordState
  cases decode cmd with
  | ok i => exact exec_withPort i s q
  | error e => rfl

@[simp] theorem wordState_port (cmd : Word) (s : State) : (wordState s cmd).port = s.port := by
  have h := congrArg State.port (wordState_withPort cmd s s.port)
  exact h

theorem step_present (cmd : Word) (cmds : List Word) (s : State) :
    step (present (cmd :: cmds) s) = .next (present cmds (wordState s cmd)) := by
  have hw : present cmds (wordState s cmd) = wordState (present cmds s) cmd := by
    have h := wordState_withPort cmd s (cmds.map .command ++ s.port)
    simpa only [present, wordState_port] using h.symm
  rw [step_command (cmd := cmd) (later := cmds.map .command ++ s.port) rfl, takeEvent_present, hw]
  unfold wordState
  cases decode cmd with
  | ok i => exact exec_eq_next i _
  | error e => rfl

/-- A run whose first step goes on is that step and then the rest. -/
theorem run_succ (M : Host.Core) (k : Nat) {s t : M.State} (h : M.step s = .next t) : M.run (k + 1) s = M.run k t := by
  simp only [Host.Core.run, h]

/-- A run of words is the fold of what each word leaves (R39, R121). -/
theorem runWords_eq_foldl (cmds : List Word) (s : State) : runWords cmds s = .next (cmds.foldl wordState s) := by
  induction cmds generalizing s with
  | nil => rfl
  | cons cmd cmds ih =>
    rw [List.foldl_cons, ← ih]
    exact run_succ Sys2Proof.core cmds.length (step_present cmd cmds s)

end Sys2Proof.Machine
end

