-- ==== Sys2Proof/Tests/Slice0.lean ====
section
/-! SUPPORT. Tests. Expected values are those of `spec/95_test_vectors.md` (K, B, Q vectors, programs P1 to P4, the decode table)
and of the worked examples in the command rules; none is the model's own answer. Below them, one witness for every obligation
that has hypotheses. -/

namespace Sys2Proof.Tests

open Sys2Proof.Machine

/-- The state an outcome continues in, if it does. -/
def next? : Host.Outcome State Fault Refusal → Option State
  | .next t => some t
  | .fault _ => none
  | .refused _ => none

/-- The reset state with these CK registers. -/
def withCk (acc hold : Half) (hv : Bool) (low : Byte) (lv : Bool) : State :=
  { State.reset with ck := { acc, hold, hv, low, lv } }

/-- The reset state with these time fields. -/
def withFields (year month day hour minute second msec : Half) : State :=
  { State.reset with bt := { BtRegs.reset with fields := { year, month, day, hour, minute, second, msec } } }

/-- Vector B1 encoded: 2024-03-07 13:45:09.123. -/
def b1 : BtRegs :=
  { fields := { year := 2024, month := 3, day := 7, hour := 13, minute := 45, second := 9, msec := 123 }
    out := { b0 := 0x12, b1 := 0x09, b2 := 0x45, b3 := 0x13, b4 := 0x07, b5 := 0x03, b6 := 0x24, b7 := 0x20 }
    valid := true }

/-- The response the last command got. -/
def lastResponse (s : State) : Option Response := s.responses.getLast?

/-- Parameters of the vectors: `TFC_MOD` = 16777215, `TIME_CSDW` = AA BB CC DD. -/
def vectorParams : Params := { tfcMod := .literal, timeCsdw := { c0 := 0xAA, c1 := 0xBB, c2 := 0xCC, c3 := 0xDD } }

/-! #### Well-formedness: each check refuses an ill-formed term (R43) -/

theorem test_wellFormed_btSet_refuses_7 : (Instr.btSet 7 0).wellFormed = false := by decide
theorem test_wellFormed_btRd_refuses_3 : (Instr.btRd 3).wellFormed = false := by decide
theorem test_wellFormed_scNext_refuses_5 : (Instr.scNext 5).wellFormed = false := by decide
theorem test_wellFormed_accepts_largest :
    ((Instr.btSet 6 0xFFFF).wellFormed && (Instr.btRd 2).wellFormed && (Instr.scNext 4).wellFormed) = true := by decide

/-! #### Decoding: words written out bit by bit from the formats (R41, R43), OP then ARG -/

theorem test_decode_ckClr : decode 0b00010000000000000000000000000000 = .ok .ckClr := by rfl
theorem test_decode_ckByte : decode 0b00010001000000000000000010100101 = .ok (.ckByte 0b10100101) := by rfl
theorem test_decode_ckWord : decode 0b00010010000000001000000000000001 = .ok (.ckWord 0b1000000000000001) := by rfl
theorem test_decode_ckRead : decode 0b00010011000000000000000000000000 = .ok .ckRead := by rfl
theorem test_decode_btSet : decode 0b00100000000001011000000000000111 = .ok (.btSet 5 0b1000000000000111) := by rfl
theorem test_decode_btEnc : decode 0b00100001000000000000000000000000 = .ok .btEnc := by rfl
theorem test_decode_btRd : decode 0b00100010000000000000000000000001 = .ok (.btRd 1) := by rfl
theorem test_decode_scNext : decode 0b00110000000000000000000000000011 = .ok (.scNext 3) := by rfl
/-- The decode table of 2.5: illegal words, each by the clause of R44. -/
theorem test_decode_illegal :
    decode 0xFFFFFFFF = .error .unassignedOpcode ∧ decode 0x23000000 = .error .unassignedOpcode ∧
    decode 0x10000001 = .error .nonzeroField ∧ decode 0x12010000 = .error .nonzeroField ∧
    decode 0x20100000 = .error .nonzeroField ∧ decode 0x22000010 = .error .nonzeroField ∧
    decode 0x30000104 = .error .nonzeroField ∧ decode 0x20070000 = .error .selectorOutOfRange := by
  refine ⟨rfl, rfl, rfl, rfl, rfl, rfl, rfl, rfl⟩
/-- The worked example of R75: `BT_SET YEAR, 2024` is 0x200007E8. -/
theorem test_encode_btSet : encode (.btSet 0 2024) = 0x200007E8 := by decide
theorem test_decodeTableWord : decodeTableWord 32 0x30000004 = some (.scNext 4) := by rfl

/-! #### ChecksumEngine -/

/-- K20. -/
theorem test_ckClr : (next? (exec .ckClr (withCk 0x1234 0x5678 true 0x9A true))).map State.ck = some CkRegs.cleared := by decide
/-- R60, K8: FFFF + 0003 wraps to 0002, and the completed word is held. -/
theorem test_ckByte_second : (next? (exec (.ckByte 0x12) (withCk 0xFFFF 0x0003 true 0x34 true))).map State.ck =
    some { acc := 0x0002, hold := 0x1234, hv := true, low := 0, lv := false } := by decide
/-- K2: a first byte is kept. -/
theorem test_ckByte_first : (next? (exec (.ckByte 0x12) State.reset)).map State.ck =
    some { acc := 0, hold := 0, hv := false, low := 0x12, lv := true } := by decide
/-- K23. -/
theorem test_ckWord_even : (next? (exec (.ckWord 0) (withCk 0xFFFF 0x0001 true 0 false))).map State.ck =
    some { acc := 0, hold := 0, hv := true, low := 0, lv := false } := by decide
/-- P3, command 4: `CK_WORD` at an odd position. -/
theorem test_ckWord_odd : (next? (exec (.ckWord 0x0300) (withCk 0 0x0001 true 0x02 true))).map State.ck =
    some { acc := 0x0001, hold := 0x0002, hv := true, low := 0x03, lv := true } := by decide
/-- K22. -/
theorem test_ckRead : (next? (exec .ckRead (withCk 0x1234 0x5678 true 0 false))).bind lastResponse =
    some { status := .ok, data := 0x00001234 } := by decide
/-- K6 and K10: an odd length, and a sum that wraps twice. -/
theorem test_cksum : cksum [0x34, 0x12, 0x78, 0x56, 0x9A] = 0x1234 ∧
    cksum [0xFF, 0xFF, 0xFF, 0xFF, 0xFF, 0xFF, 0xFF, 0xFF] = 0xFFFD := by decide

/-! #### BcdTimeEncoder -/

/-- B22: any `BT_SET` invalidates, even one that writes the same value. -/
theorem test_btSet : (next? (exec (.btSet 5 9) { State.reset with bt := b1 })).map State.bt =
    some { b1 with out := BcdBytes.zero, valid := false } := by decide
/-- B27: field selector 7 is illegal and `BT_VALID` is kept. -/
theorem test_btSet_illegal : (next? (exec (.btSet 7 0) { State.reset with bt := b1 })).map (fun t => (t.bt, t.responses)) =
    some (b1, [{ status := .illegal, data := 0 }]) := by decide
/-- B1 (S4). -/
theorem test_btEnc : (next? (exec .btEnc (withFields 2024 3 7 13 45 9 123))).map State.bt = some b1 := by decide
/-- B9: millisecond 1000. -/
theorem test_btEnc_range : (next? (exec .btEnc (withFields 2024 1 1 0 0 0 1000))).map (fun t => (t.bt, t.responses)) =
    some ((withFields 2024 1 1 0 0 0 1000).bt, [{ status := .range, data := 0 }]) := by decide
/-- B1, B26: the three payload words. -/
theorem test_btRd : [PayloadWord.control, .outLow, .outHigh].map
    (fun k => lastResponse (readPayload vectorParams k { State.reset with bt := b1 })) =
    [some { status := .ok, data := 0xDDCCBBAA }, some { status := .ok, data := 0x13450912 },
     some { status := .ok, data := 0x20240307 }] := by decide
/-- B21, B29: not ready even for word 0; illegal wins over not ready. -/
theorem test_btRd_refused : [0, 3].map (fun sel => (next? (exec (.btRd sel) State.reset)).bind lastResponse) =
    [some { status := .notReady, data := 0 }, some { status := .illegal, data := 0 }] := by decide

/-! #### SequenceCounters -/

/-- Q4, Q3: the value before the advance; wrap after the maximum. -/
theorem test_scNext_wrap : (next? (exec (.scNext 1) { State.reset with sc := { ScRegs.reset with iena := 0xFFFF } })).map
    (fun t => (t.sc, t.responses)) = some (ScRegs.reset, [{ status := .ok, data := 0x0000FFFF }]) := by decide
/-- Q6, Q7: the transport counter under each admitted modulus. -/
theorem test_scNext_tfc :
    (advanceCounter { vectorParams with tfcMod := .literal } .tfc
      { State.reset with sc := { ScRegs.reset with tfc := 16777214 } }).sc.tfc = 0 ∧
    (advanceCounter { vectorParams with tfcMod := .wholeRange } .tfc
      { State.reset with sc := { ScRegs.reset with tfc := 16777214 } }).sc.tfc = 0xFFFFFF := by decide

/-! #### The step, and the assembler -/

/-- P4, command 9: an illegal word. -/
theorem test_step_illegal : next? (step (State.reset.withFetchWord 32 0)) =
    some { State.reset with responses := [{ status := .illegal, data := 0 }] } := by decide
/-- P2, command 2, as a step from reset. -/
theorem test_step_command : (next? (step (State.reset.withFetchWord 32 0x20010003))).map (fun t => (t.bt.fields.month, t.port)) =
    some (3, []) := by decide
/-- P1, command 8; P2, command 6; P3, command 10. -/
theorem test_assembleText :
    assembleText "CK_WORD 0x0006 ; data_type_version".toList = some [0x12000006] ∧
    assembleText "BT_SET SECOND, 9".toList = some [0x20050009] ∧
    assembleText "SC_NEXT TIME".toList = some [0x30000003] ∧ assembleText "BT_RD 3".toList = none ∧
    assembleText "CK_BYTE 256".toList = none := by decide
/-- R48: `0x` is hexadecimal, digits without it are decimal, so a letter among these is no digit. -/
theorem test_digitsValue :
    digitsValue 16 "1fB".toList = some 0x1FB ∧ digitsValue 10 "4095".toList = some 4095 ∧
    digitsValue 10 "1A".toList = none ∧ digitsValue 16 "1G".toList = none := by decide
/-- R49 on K3: `CK_SUM 0x34 0x12`. -/
theorem test_assembleText_ckSum :
    assembleText "CK_SUM 0x34 0x12".toList = some [0x10000000, 0x11000034, 0x11000012, 0x13000000] := by decide

/-! #### Witnesses: a state and operands that meet each obligation's hypotheses -/

/-- A canonical state in the middle of its work: K6 pushed, B1 encoded, counters running, a `BT_ENC` presented. -/
def busy : State :=
  { ck := { acc := 0x1234, hold := 0x5678, hv := true, low := 0x9A, lv := true }
    bt := b1
    sc := { outer := 255, iena := 65535, seqcnt := 255, time := 255, tfc := 16777214 }
    port := [.command 0x21000000]
    responses := [] }

theorem busy_canonical : Canonical Config.params busy where
  noWordHeld h := absurd h (by decide)
  noBytePending h := absurd h (by decide)
  noEncoding h := absurd h (by decide)
  freshEncoding _ := by decide
  countersBelowMod i := by
    cases i with
    | tfc =>
      show 16777214 ≤ Config.params.tfcMod.value - 1
      cases Config.params.tfcMod <;> decide
    | _ => decide

theorem wit_DecodeOfEncode : ∃ i : Instr, i.wellFormed = true := ⟨.btSet 6 0xFFFF, by decide⟩
theorem wit_EncodeOfDecode : ∃ (cmd : Word) (i : Instr), decode cmd = .ok i := ⟨0x22000002, .btRd 2, rfl⟩
theorem wit_AssemblerNeverProducesIllegalWord :
    ∃ (l : AsmLine) (cmds : List Word), assemble l = some cmds ∧ 0x30000004 ∈ cmds :=
  ⟨{ mnemonic := .scNext, operands := [.number 4] }, [0x30000004], by decide, by decide⟩
theorem wit_StepRunsDecodedCommand :
    busy.port = [.command 0x21000000] ∧ decode 0x21000000 = .ok .btEnc := ⟨rfl, rfl⟩
/-- An illegal word of each kind, presented: unassigned opcode, non-zero field, selector out of range. -/
theorem wit_IllegalWordsAreExactlyThese :
    (present [0x30000005] State.reset).port = [.command 0x30000005] ∧ (∃ e, decode 0x30000005 = .error e) ∧
    (∃ e, decode 0x13800000 = .error e) ∧ ∃ e, decode 0x31000000 = .error e := ⟨rfl, ⟨_, rfl⟩, ⟨_, rfl⟩, _, rfl⟩
/-- The illegal neighbour of each command (K24 to K27, B27, B28, B30, B31, Q9, Q10) meets the last clause of its statement. -/
theorem wit_illegal_clauses :
    ((0x10000001 : Word).extractLsb' 24 8 = 0x10 ∧ (0x10000001 : Word).extractLsb' 0 24 ≠ 0) ∧
    ((0x11000100 : Word).extractLsb' 24 8 = 0x11 ∧ (0x11000100 : Word).extractLsb' 8 16 ≠ 0) ∧
    ((0x12010000 : Word).extractLsb' 24 8 = 0x12 ∧ (0x12010000 : Word).extractLsb' 16 8 ≠ 0) ∧
    ((0x13800000 : Word).extractLsb' 24 8 = 0x13 ∧ (0x13800000 : Word).extractLsb' 0 24 ≠ 0) ∧
    ((0x20070000 : Word).extractLsb' 24 8 = 0x20 ∧ 6 < ((0x20070000 : Word).extractLsb' 16 4).toNat) ∧
    ((0x20100000 : Word).extractLsb' 24 8 = 0x20 ∧ (0x20100000 : Word).extractLsb' 20 4 ≠ 0) ∧
    ((0x22000003 : Word).extractLsb' 24 8 = 0x22 ∧ 2 < ((0x22000003 : Word).extractLsb' 0 4).toNat) ∧
    ((0x22000010 : Word).extractLsb' 24 8 = 0x22 ∧ (0x22000010 : Word).extractLsb' 4 20 ≠ 0) ∧
    ((0x30000005 : Word).extractLsb' 24 8 = 0x30 ∧ 4 < ((0x30000005 : Word).extractLsb' 0 4).toNat) ∧
    ((0x30000104 : Word).extractLsb' 24 8 = 0x30 ∧ (0x30000104 : Word).extractLsb' 4 20 ≠ 0) := by decide
theorem wit_NothingHappensBetweenCommands : State.reset.port = [] := rfl
theorem wit_ResetClearsEveryRegister : ∃ s : State, s.port = [.reset [0x10000000]] ∧ s.ck ≠ State.reset.ck :=
  ⟨{ busy with port := [.reset [0x10000000]] }, rfl, by decide⟩
/-- One witness for each status: an illegal word, a `BT_ENC` out of range, a `BT_RD` with nothing encoded. -/
theorem wit_ErrorsAndTheirCauses :
    (∃ e, decode 0x20070000 = .error e) ∧
    (decode 0x21000000 = .ok .btEnc ∧ inRange (withFields 10000 1 1 0 0 0 0).bt.fields = false) ∧
    (decode 0x22000002 = .ok (.btRd 2) ∧ State.reset.bt.valid = false) ∧
    (present [0x21000000] State.reset).port = [.command 0x21000000] := ⟨⟨_, rfl⟩, ⟨rfl, by decide⟩, ⟨rfl, rfl⟩, rfl⟩
theorem wit_CkWordIsTwoCkBytes : (State.reset.ck.lv = false ∧ State.reset.ck.low = 0) ∧ busy.ck.lv = true := ⟨⟨rfl, rfl⟩, rfl⟩
theorem wit_CksumOfShortBufferIsZero : ([0x34, 0x12, 0x56] : List Byte).length < 4 := by decide
theorem wit_DanglingByteChangesNothing : ([0x34, 0x12, 0x78, 0x56] : List Byte).length % 2 = 0 := by decide
theorem wit_LastWordIsNeverSummed : ([0x34, 0x12] : List Byte).length % 2 = 0 := by decide
theorem wit_ChecksumIgnoresWordOrder :
    (completeWords [0x34, 0x12, 0x78, 0x56, 0, 0]).dropLast.Perm (completeWords [0x78, 0x56, 0x34, 0x12, 1, 1]).dropLast := by
  decide
/-- A push, an illegal word, a `BT_SET`, a `CK_READ`, an `SC_NEXT` and a push at an odd position. -/
theorem wit_StreamComputesCksum :
    ∀ cmd ∈ ([0x11000034, 0x00000000, 0x20010003, 0x13000000, 0x30000004, 0x12005678] : List Word), decode cmd ≠ .ok .ckClr := by
  intro cmd h
  fin_cases h <;> exact nofun
theorem wit_OmittedClearConcatenates : CkHolds busy.ck [0x34, 0x12, 0x78, 0x56, 0x9A] where
  acc := by decide
  hv := by decide
  hold := by decide
  lv := by decide
  low := by decide
theorem wit_Bcd2ShowsDecimalDigits : ∃ v w : Nat, v ≤ 99 ∧ w ≤ 99 ∧ bcd2 v = bcd2 w := ⟨99, 99, by decide, by decide, rfl⟩
theorem wit_SelectorOutOfRangeIsIllegal : 6 < (7 : Nibble).toNat ∧ 2 < (3 : Nibble).toNat ∧ 4 < (5 : Nibble).toNat := by decide
theorem wit_BtEncSucceedsExactlyInRange :
    ¬ (withFields 2024 100 1 0 0 0 0).bt.fields.month.toNat ≤ 99 := by decide
/-- B4: every field at its limit. -/
theorem wit_BtEncWritesTheEightBytes : inRange (withFields 9999 99 99 99 99 99 999).bt.fields = true := by decide
theorem wit_BtEncDigits : inRange (withFields 1999 12 31 23 59 59 999).bt.fields = true := by decide
theorem wit_SubSecondByteDigits : inRange (withFields 2026 11 10 4 46 0 90).bt.fields = true := by decide
/-- P4, command 6: the one way a step takes `BT_VALID` from 0 to 1. -/
theorem wit_NoEncodingUntilBtEncSucceeds_step :
    State.reset.bt.valid = false ∧ step (present [0x21000000] State.reset) = execBtEnc State.reset ∧
      ∃ t, execBtEnc State.reset = .next t ∧ t.bt.valid = true := ⟨rfl, rfl, _, rfl, rfl⟩
/-- P4, commands 2 to 4: a `BT_SET` out of range, a `BT_ENC` that fails, a `BT_RD`. -/
theorem wit_NoEncodingUntilBtEncSucceeds_run :
    State.reset.bt.valid = false ∧
    ∀ (before : List Word) (cmd : Word) (after : List Word),
      [0x20010064, 0x21000000, 0x22000001] = before ++ cmd :: after → decode cmd = .ok .btEnc →
      ∃ u, runWords before State.reset = .next u ∧ inRange u.bt.fields = false := by
  refine ⟨rfl, fun before cmd after h hd => ?_⟩
  rcases before with _ | ⟨a, _ | ⟨b, _ | ⟨c, before⟩⟩⟩
  · cases h; exact nomatch hd
  · cases h; exact ⟨_, rfl, by decide⟩
  · cases h; exact nomatch hd
  · simp at h
theorem wit_TimePayloadPseudoCommands : inRange b1.fields = true := by decide
/-- Every counter at, or one below, its maximum under either modulus. -/
theorem wit_ScNextReturnsThenAdvances : ∀ i, readCounter busy.sc i ≤ counterMax Config.params i :=
  busy_canonical.countersBelowMod
theorem wit_CounterModuli : ∀ i, readCounter busy.sc i ≤ counterMax Config.params i := busy_canonical.countersBelowMod
theorem wit_TransportCounterBoundary :
    readCounter busy.sc .tfc = counterMax vectorParams .tfc ∧
    readCounter busy.sc .tfc < counterMax { vectorParams with tfcMod := .wholeRange } .tfc := by decide
theorem wit_CounterSequence : ∀ i, readCounter State.reset.sc i = 0 := readCounter_reset
theorem wit_StepKeepsCanonical : Canonical Config.params busy ∧ ∃ t, step busy = .next t := ⟨busy_canonical, _, rfl⟩
theorem wit_ValidEncodingIsBcd : Canonical Config.params busy ∧ busy.bt.valid = true := ⟨busy_canonical, rfl⟩
theorem wit_AccessTable : unitOf (.btSet 1 3) ≠ .ck ∧ unitOf .ckRead ≠ .bt ∧ unitOf .btEnc ≠ .sc ∧
    selOfField .year ≠ 1 ∧ selOfCounter .outer ≠ 4 := by decide
theorem wit_ResponseDependsOnOwnUnit : unitOf .ckRead = .ck ∧ busy.ck = { State.reset with ck := busy.ck }.ck ∧
    busy ≠ { State.reset with ck := busy.ck } := ⟨rfl, rfl, by decide⟩
theorem wit_RepeatableCommands : ∃ i : Instr, i = .btEnc ∨ (∃ k, i = .btRd k) ∨ ∃ f v, i = .btSet f v :=
  ⟨.btSet 6 999, .inr (.inr ⟨6, 999, rfl⟩)⟩
theorem wit_CountersCommute : CounterId.outer ≠ CounterId.tfc := by decide
theorem wit_ConsequencesOfReset : (2 : Nibble).toNat ≤ 2 := by decide

end Sys2Proof.Tests
end

section
/-! A step with a legal word presented (`00_scope.md`, R6 and R39). -/

namespace Sys2Proof.Proofs

open Sys2Proof.Machine

/-- Taking the head event leaves exactly the later ones on the port (R39: a word is presented once). -/
theorem takeEvent_of_port_eq_cons {s : State} {e : HostEvent} {later : List HostEvent} (h : s.port = e :: later) :
    takeEvent s = { s with port := later } := by
  rw [takeEvent, h, List.tail_cons]

/-- Settles O9: `step_command` at a word that decodes, with the state after `takeEvent` written out. -/
theorem stepRunsDecodedCommand : Obligations.StepRunsDecodedCommand := by
  intro s cmd later i hport hdecode
  rw [step_command hport, hdecode, takeEvent_of_port_eq_cons hport]

end Sys2Proof.Proofs
end

section
/-! The reset values (`10_state.md`, R26). -/

namespace Sys2Proof.Proofs

open Sys2Proof.Machine

@[simp] theorem outBytes_zero : outBytes BcdBytes.zero = List.replicate 8 0 := rfl

/-- A reset leaves the registers of the reset state whatever they held (R26, R110). -/
theorem sameRegisters_reset_resetBlock (s : State) : SameRegisters State.reset (resetBlock s) :=
  ⟨resetBlock_ck s, resetBlock_bt s, resetBlock_sc s⟩

/-- Settles O12, unit by unit: the CK registers and `BT_VALID` by their reset values, the time fields, the BCD bytes and the
counters by what their readers return of a zero record, and the last part by `sameRegisters_reset_resetBlock`. -/
theorem resetValuesAreZero : Obligations.ResetValuesAreZero := by
  have hfields : ∀ f, readField State.reset.bt.fields f = 0 := readField_zero
  have hout : outBytes State.reset.bt.out = List.replicate 8 0 := outBytes_zero
  have hcounters : ∀ i, readCounter State.reset.sc i = 0 := readCounter_reset
  exact ⟨rfl, rfl, rfl, rfl, rfl, hfields, hout, rfl, hcounters, sameRegisters_reset_resetBlock⟩

end Sys2Proof.Proofs
end

section
/-! A bit vector in two parts: what equals an upper part above a lower one, by its parts and by its value. -/

namespace Sys2Proof.Proofs

theorem eq_append_iff {n m : Nat} (x : BitVec (n + m)) (hi : BitVec n) (lo : BitVec m) :
    x = hi ++ lo ↔ x.extractLsb' m n = hi ∧ x.extractLsb' 0 m = lo := by
  constructor
  · rintro rfl
    exact ⟨BitVec.extractLsb'_append_eq_left, BitVec.extractLsb'_append_eq_right⟩
  · rintro ⟨rfl, rfl⟩
    exact BitVec.extractLsb'_append_extractLsb'.symm

theorem eq_append_append_iff {n m k : Nat} (x : BitVec (n + (m + k))) (hi : BitVec n) (mid : BitVec m) (lo : BitVec k) :
    x = hi ++ (mid ++ lo) ↔ x.extractLsb' (m + k) n = hi ∧ x.extractLsb' k m = mid ∧ x.extractLsb' 0 k = lo := by
  rw [eq_append_iff, eq_append_iff, BitVec.extractLsb'_extractLsb'_of_le (by omega),
    BitVec.extractLsb'_extractLsb'_of_le (by omega)]

theorem toNat_append_eq_add {n m : Nat} (hi : BitVec n) (lo : BitVec m) :
    (hi ++ lo).toNat = hi.toNat * 2 ^ m + lo.toNat := by
  rw [BitVec.toNat_append, ← Nat.shiftLeft_add_eq_or_of_lt lo.isLt, Nat.shiftLeft_eq]

/-- A row of R43: under a mask of the upper `n` bits a word matches `p` exactly when it is `p` above its own lower bits. -/
theorem append_eq_iff_mask_match {n m : Nat} {mask pattern : BitVec (n + m)} {p : BitVec n}
    (hmask : mask = BitVec.allOnes n ++ 0#m) (hpattern : pattern = p ++ 0#m) (x : BitVec (n + m)) (lo : BitVec m) :
    p ++ lo = x ↔ x &&& mask = pattern ∧ lo = x.extractLsb' 0 m := by
  rw [hmask, hpattern, eq_comm, eq_append_iff, eq_append_iff]
  simp [BitVec.extractLsb'_and, BitVec.extractLsb'_append_eq_left, BitVec.extractLsb'_append_eq_right, eq_comm]

end Sys2Proof.Proofs
end

section
/-! The command word in its two fields (R40), what `decode` does at each `OP` (R43), and the form of `ARG` each format
accepts (R41). -/

namespace Sys2Proof.Proofs

/-- The `OP` of a command (R43). -/
def opcode : Instr → Byte
  | .ckClr => 0x10
  | .ckByte _ => 0x11
  | .ckWord _ => 0x12
  | .ckRead => 0x13
  | .btSet _ _ => 0x20
  | .btEnc => 0x21
  | .btRd _ => 0x22
  | .scNext _ => 0x30

/-- The `ARG` of a command (R41): the zero field of its format above its operands. -/
def argBits : Instr → BitVec 24
  | .ckClr => 0
  | .ckByte imm8 => 0#16 ++ imm8
  | .ckWord imm16 => 0#8 ++ imm16
  | .ckRead => 0
  | .btSet sel imm16 => 0#4 ++ (sel ++ imm16)
  | .btEnc => 0
  | .btRd sel => 0#20 ++ sel
  | .scNext sel => 0#20 ++ sel

theorem encode_eq_append (i : Instr) : encode i = opcode i ++ argBits i := by
  cases i with
  | ckClr => rfl
  | ckByte imm8 => exact BitVec.append_assoc
  | ckWord imm16 => exact BitVec.append_assoc
  | ckRead => rfl
  | btSet sel imm16 => exact BitVec.append_assoc.trans BitVec.append_assoc
  | btEnc => rfl
  | btRd sel => exact BitVec.append_assoc
  | scNext sel => exact BitVec.append_assoc

@[simp] theorem opField_encode (i : Instr) : opField (encode i) = opcode i := by
  rw [encode_eq_append]; exact BitVec.extractLsb'_append_eq_left

@[simp] theorem argField_encode (i : Instr) : argField (encode i) = argBits i := by
  rw [encode_eq_append]; exact BitVec.extractLsb'_append_eq_right

theorem encode_eq_of_fields {cmd : Word} {i : Instr} (hop : opField cmd = opcode i) (harg : argField cmd = argBits i) :
    encode i = cmd := by
  rw [encode_eq_append, ← hop, ← harg, opField_append_argField]

/-! #### The rows of the opcode map -/

/-- The eight assigned values of `OP` (R43). -/
def opcodes : List Byte := [0x10, 0x11, 0x12, 0x13, 0x20, 0x21, 0x22, 0x30]

theorem mem_opcodes_iff (op : Byte) :
    op ∈ opcodes ↔ op = 0x10 ∨ op = 0x11 ∨ op = 0x12 ∨ op = 0x13 ∨ op = 0x20 ∨ op = 0x21 ∨ op = 0x22 ∨ op = 0x30 := by
  simp [opcodes]

section
variable {cmd : Word}

theorem decode_ckClr_row (h : opField cmd = 0x10) : decode cmd = decodeZ (argField cmd) .ckClr := by simp [decode, h]

theorem decode_ckByte_row (h : opField cmd = 0x11) : decode cmd = decodeB (argField cmd) .ckByte := by simp [decode, h]

theorem decode_ckWord_row (h : opField cmd = 0x12) : decode cmd = decodeH (argField cmd) .ckWord := by simp [decode, h]

theorem decode_ckRead_row (h : opField cmd = 0x13) : decode cmd = decodeZ (argField cmd) .ckRead := by simp [decode, h]

theorem decode_btSet_row (h : opField cmd = 0x20) : decode cmd = decodeF (argField cmd) timeFieldSelLegal .btSet := by
  simp [decode, h]

theorem decode_btEnc_row (h : opField cmd = 0x21) : decode cmd = decodeZ (argField cmd) .btEnc := by simp [decode, h]

theorem decode_btRd_row (h : opField cmd = 0x22) : decode cmd = decodeS (argField cmd) payloadSelLegal .btRd := by
  simp [decode, h]

theorem decode_scNext_row (h : opField cmd = 0x30) : decode cmd = decodeS (argField cmd) counterSelLegal .scNext := by
  simp [decode, h]

theorem decode_unassigned (h : opField cmd ∉ opcodes) : decode cmd = .error .unassignedOpcode := by
  simp only [mem_opcodes_iff, not_or] at h
  simp only [decode, h, ↓reduceIte]

end

/-! #### The form of `ARG` each format accepts -/

theorem decodeB_ok_iff_arg (arg : BitVec 24) (mk : Byte → Instr) (j : Instr) :
    decodeB arg mk = .ok j ↔ ∃ imm8, arg = 0#16 ++ imm8 ∧ j = mk imm8 := by
  simp only [decodeB_ok_iff, eq_append_iff (n := 16) (m := 8)]
  constructor
  · exact fun ⟨hzero, hj⟩ => ⟨_, ⟨hzero, rfl⟩, hj⟩
  · rintro ⟨imm8, ⟨hzero, rfl⟩, hj⟩
    exact ⟨hzero, hj⟩

theorem decodeH_ok_iff_arg (arg : BitVec 24) (mk : Half → Instr) (j : Instr) :
    decodeH arg mk = .ok j ↔ ∃ imm16, arg = 0#8 ++ imm16 ∧ j = mk imm16 := by
  simp only [decodeH_ok_iff, eq_append_iff (n := 8) (m := 16)]
  constructor
  · exact fun ⟨hzero, hj⟩ => ⟨_, ⟨hzero, rfl⟩, hj⟩
  · rintro ⟨imm16, ⟨hzero, rfl⟩, hj⟩
    exact ⟨hzero, hj⟩

theorem decodeS_ok_iff_arg (arg : BitVec 24) (legal : Nibble → Bool) (mk : Nibble → Instr) (j : Instr) :
    decodeS arg legal mk = .ok j ↔ ∃ sel, arg = 0#20 ++ sel ∧ legal sel = true ∧ j = mk sel := by
  simp only [decodeS_ok_iff, eq_append_iff (n := 20) (m := 4)]
  constructor
  · exact fun ⟨hzero, hlegal, hj⟩ => ⟨_, ⟨hzero, rfl⟩, hlegal, hj⟩
  · rintro ⟨sel, ⟨hzero, rfl⟩, hlegal, hj⟩
    exact ⟨hzero, hlegal, hj⟩

theorem decodeF_ok_iff_arg (arg : BitVec 24) (legal : Nibble → Bool) (mk : Nibble → Half → Instr) (j : Instr) :
    decodeF arg legal mk = .ok j ↔
      ∃ sel imm16, arg = 0#4 ++ (sel ++ imm16) ∧ legal sel = true ∧ j = mk sel imm16 := by
  simp only [decodeF_ok_iff, eq_append_append_iff (n := 4) (m := 4) (k := 16)]
  constructor
  · exact fun ⟨hzero, hlegal, hj⟩ => ⟨_, _, ⟨hzero, rfl, rfl⟩, hlegal, hj⟩
  · rintro ⟨sel, imm16, ⟨hzero, rfl, rfl⟩, hlegal, hj⟩
    exact ⟨hzero, hlegal, hj⟩

end Sys2Proof.Proofs
end

section
/-! Decoding and encoding undo each other (R46, R48). -/

namespace Sys2Proof.Proofs

/-- A well-formed command's word decodes to it (R48): its `OP` picks the row, its `ARG` has the form the row's format
accepts. -/
theorem decode_encode {i : Instr} (hwf : i.wellFormed = true) : decode (encode i) = .ok i := by
  have hop := opField_encode i
  have harg := argField_encode i
  cases i with
  | ckClr => exact (decode_ckClr_row hop).trans ((decodeZ_ok_iff _ _ _).mpr ⟨harg, rfl⟩)
  | ckByte imm8 => exact (decode_ckByte_row hop).trans ((decodeB_ok_iff_arg _ _ _).mpr ⟨imm8, harg, rfl⟩)
  | ckWord imm16 => exact (decode_ckWord_row hop).trans ((decodeH_ok_iff_arg _ _ _).mpr ⟨imm16, harg, rfl⟩)
  | ckRead => exact (decode_ckRead_row hop).trans ((decodeZ_ok_iff _ _ _).mpr ⟨harg, rfl⟩)
  | btSet sel imm16 =>
    exact (decode_btSet_row hop).trans ((decodeF_ok_iff_arg _ _ _ _).mpr ⟨sel, imm16, harg, hwf, rfl⟩)
  | btEnc => exact (decode_btEnc_row hop).trans ((decodeZ_ok_iff _ _ _).mpr ⟨harg, rfl⟩)
  | btRd sel => exact (decode_btRd_row hop).trans ((decodeS_ok_iff_arg _ _ _ _).mpr ⟨sel, harg, hwf, rfl⟩)
  | scNext sel => exact (decode_scNext_row hop).trans ((decodeS_ok_iff_arg _ _ _ _).mpr ⟨sel, harg, hwf, rfl⟩)

/-- A word that decodes is the one word of a well-formed command (R46): row by row, `OP` and `ARG` are the command's. -/
theorem encode_of_decode {cmd : Word} {i : Instr} (h : decode cmd = .ok i) : encode i = cmd ∧ i.wellFormed = true := by
  by_cases hop : opField cmd ∈ opcodes
  · rcases (mem_opcodes_iff _).mp hop with hop | hop | hop | hop | hop | hop | hop | hop
    · obtain ⟨harg, rfl⟩ := (decodeZ_ok_iff _ _ _).mp ((decode_ckClr_row hop).symm.trans h)
      exact ⟨encode_eq_of_fields hop harg, rfl⟩
    · obtain ⟨imm8, harg, rfl⟩ := (decodeB_ok_iff_arg _ _ _).mp ((decode_ckByte_row hop).symm.trans h)
      exact ⟨encode_eq_of_fields hop harg, rfl⟩
    · obtain ⟨imm16, harg, rfl⟩ := (decodeH_ok_iff_arg _ _ _).mp ((decode_ckWord_row hop).symm.trans h)
      exact ⟨encode_eq_of_fields hop harg, rfl⟩
    · obtain ⟨harg, rfl⟩ := (decodeZ_ok_iff _ _ _).mp ((decode_ckRead_row hop).symm.trans h)
      exact ⟨encode_eq_of_fields hop harg, rfl⟩
    · obtain ⟨sel, imm16, harg, hlegal, rfl⟩ := (decodeF_ok_iff_arg _ _ _ _).mp ((decode_btSet_row hop).symm.trans h)
      exact ⟨encode_eq_of_fields hop harg, hlegal⟩
    · obtain ⟨harg, rfl⟩ := (decodeZ_ok_iff _ _ _).mp ((decode_btEnc_row hop).symm.trans h)
      exact ⟨encode_eq_of_fields hop harg, rfl⟩
    · obtain ⟨sel, harg, hlegal, rfl⟩ := (decodeS_ok_iff_arg _ _ _ _).mp ((decode_btRd_row hop).symm.trans h)
      exact ⟨encode_eq_of_fields hop harg, hlegal⟩
    · obtain ⟨sel, harg, hlegal, rfl⟩ := (decodeS_ok_iff_arg _ _ _ _).mp ((decode_scNext_row hop).symm.trans h)
      exact ⟨encode_eq_of_fields hop harg, hlegal⟩
  · exact nomatch (decode_unassigned hop).symm.trans h

theorem decode_eq_ok_iff (cmd : Word) (i : Instr) : decode cmd = .ok i ↔ encode i = cmd ∧ i.wellFormed = true := by
  constructor
  · exact encode_of_decode
  · rintro ⟨rfl, hwf⟩
    exact decode_encode hwf

theorem decode_ok_iff_encode_eq {cmd : Word} {i : Instr} (hwf : i.wellFormed = true) :
    decode cmd = .ok i ↔ encode i = cmd := (decode_eq_ok_iff cmd i).trans (and_iff_left hwf)

/-- Settles O2 by `decode_encode`. -/
theorem decodeOfEncode : Obligations.DecodeOfEncode := fun _ => decode_encode

/-- Settles O3 by `encode_of_decode`. -/
theorem encodeOfDecode : Obligations.EncodeOfDecode := fun _ _ => encode_of_decode

end Sys2Proof.Proofs
end

section
/-! Illegal words (R44, R98). -/

namespace Sys2Proof.Proofs

open Sys2Proof.Machine

/-- A field of `ARG` is that field of the word (R40). -/
theorem argField_extractLsb' (cmd : Word) {start len : Nat} (h : start + len ≤ 24) :
    (argField cmd).extractLsb' start len = cmd.extractLsb' start len := BitVec.extractLsb'_extractLsb'_of_le h

theorem timeFieldSelLegal_iff (sel : Nibble) : timeFieldSelLegal sel = true ↔ sel.toNat ≤ 6 := by
  simp [timeFieldSelLegal, BitVec.le_def]

theorem payloadSelLegal_iff (sel : Nibble) : payloadSelLegal sel = true ↔ sel.toNat ≤ 2 := by
  simp [payloadSelLegal, BitVec.le_def]

theorem counterSelLegal_iff (sel : Nibble) : counterSelLegal sel = true ↔ sel.toNat ≤ 4 := by
  simp [counterSelLegal, BitVec.le_def]

theorem exists_error_iff {ε α : Type} (x : Except ε α) : (∃ e, x = .error e) ↔ ¬ ∃ a, x = .ok a := by
  cases x <;> simp

theorem decodeZ_error_iff (cmd : Word) (i : Instr) :
    (∃ e, decodeZ (argField cmd) i = .error e) ↔ cmd.extractLsb' 0 24 ≠ 0 := by
  simp [exists_error_iff, decodeZ_ok_iff, argField]

theorem decodeB_error_iff (cmd : Word) (mk : Byte → Instr) :
    (∃ e, decodeB (argField cmd) mk = .error e) ↔ cmd.extractLsb' 8 16 ≠ 0 := by
  simp [exists_error_iff, decodeB_ok_iff, argField_extractLsb']

theorem decodeH_error_iff (cmd : Word) (mk : Half → Instr) :
    (∃ e, decodeH (argField cmd) mk = .error e) ↔ cmd.extractLsb' 16 8 ≠ 0 := by
  simp [exists_error_iff, decodeH_ok_iff, argField_extractLsb']

theorem decodeS_error_iff (cmd : Word) (legal : Nibble → Bool) (mk : Nibble → Instr) :
    (∃ e, decodeS (argField cmd) legal mk = .error e) ↔
      cmd.extractLsb' 4 20 ≠ 0 ∨ ¬ legal (cmd.extractLsb' 0 4) = true := by
  simp [exists_error_iff, decodeS_ok_iff, argField_extractLsb', imp_iff_not_or]

theorem decodeF_error_iff (cmd : Word) (legal : Nibble → Bool) (mk : Nibble → Half → Instr) :
    (∃ e, decodeF (argField cmd) legal mk = .error e) ↔
      cmd.extractLsb' 20 4 ≠ 0 ∨ ¬ legal (cmd.extractLsb' 16 4) = true := by
  simp [exists_error_iff, decodeF_ok_iff, argField_extractLsb', imp_iff_not_or]

/-- An illegal word executes nothing (R98): the step is the `E_ILLEGAL` response alone. -/
theorem answeredIllegal_of_decode_error {cmd : Word} {e : DecodeError} (h : decode cmd = .error e) :
    AnsweredIllegal cmd := by
  intro s later hport
  rw [step_command hport, h, takeEvent_of_port_eq_cons hport]
  rfl

/-- The three clauses of R44, row by row. -/
theorem decode_error_iff (cmd : Word) :
    (∃ e, decode cmd = .error e) ↔
      opField cmd ∉ opcodes ∨
      (opField cmd ∈ ([0x10, 0x13, 0x21] : List Byte) ∧ cmd.extractLsb' 0 24 ≠ 0) ∨
      (opField cmd = 0x11 ∧ cmd.extractLsb' 8 16 ≠ 0) ∨
      (opField cmd = 0x12 ∧ cmd.extractLsb' 16 8 ≠ 0) ∨
      (opField cmd = 0x20 ∧ (cmd.extractLsb' 20 4 ≠ 0 ∨ 6 < (cmd.extractLsb' 16 4).toNat)) ∨
      (opField cmd = 0x22 ∧ (cmd.extractLsb' 4 20 ≠ 0 ∨ 2 < (cmd.extractLsb' 0 4).toNat)) ∨
      (opField cmd = 0x30 ∧ (cmd.extractLsb' 4 20 ≠ 0 ∨ 4 < (cmd.extractLsb' 0 4).toNat)) := by
  by_cases hop : opField cmd ∈ opcodes
  · rcases (mem_opcodes_iff _).mp hop with h | h | h | h | h | h | h | h
    · rw [decode_ckClr_row h, decodeZ_error_iff]; simp [h, opcodes]
    · rw [decode_ckByte_row h, decodeB_error_iff]; simp [h, opcodes]
    · rw [decode_ckWord_row h, decodeH_error_iff]; simp [h, opcodes]
    · rw [decode_ckRead_row h, decodeZ_error_iff]; simp [h, opcodes]
    · rw [decode_btSet_row h, decodeF_error_iff, timeFieldSelLegal_iff]; simp [h, opcodes]
    · rw [decode_btEnc_row h, decodeZ_error_iff]; simp [h, opcodes]
    · rw [decode_btRd_row h, decodeS_error_iff, payloadSelLegal_iff]; simp [h, opcodes]
    · rw [decode_scNext_row h, decodeS_error_iff, counterSelLegal_iff]; simp [h, opcodes]
  · exact iff_of_true ⟨_, decode_unassigned hop⟩ (.inl hop)

/-- Settles O5: `decode_error_iff` is the three clauses of R44, `answeredIllegal_of_decode_error` is R98. -/
theorem illegalWordsAreExactlyThese : Obligations.IllegalWordsAreExactlyThese :=
  fun cmd => ⟨fun ⟨_, h⟩ => answeredIllegal_of_decode_error h, decode_error_iff cmd⟩

end Sys2Proof.Proofs
end

section
/-! The rows of the opcode map as masks and matches (R43). -/

namespace Sys2Proof.Proofs

/-- A row without operands: the word is the match. -/
theorem eq_iff_full_mask_match (cmd w : Word) : w = cmd ↔ cmd &&& 0xFFFFFFFF = w := by
  rw [show (0xFFFFFFFF : Word) = BitVec.allOnes 32 from rfl, BitVec.and_allOnes, eq_comm]

theorem encode_ckByte_eq_iff (cmd : Word) (b : Byte) :
    encode (.ckByte b) = cmd ↔ cmd &&& 0xFFFFFF00 = 0x11000000 ∧ b = cmd.extractLsb' 0 8 :=
  append_eq_iff_mask_match (n := 24) (m := 8) (p := 0x11#8 ++ 0#16) rfl rfl cmd b

theorem encode_ckWord_eq_iff (cmd : Word) (h : Half) :
    encode (.ckWord h) = cmd ↔ cmd &&& 0xFFFF0000 = 0x12000000 ∧ h = cmd.extractLsb' 0 16 :=
  append_eq_iff_mask_match (n := 16) (m := 16) (p := 0x12#8 ++ 0#8) rfl rfl cmd h

theorem encode_btSet_eq_iff (cmd : Word) (f : Nibble) (h : Half) :
    encode (.btSet f h) = cmd ↔
      cmd &&& 0xFFF00000 = 0x20000000 ∧ f = cmd.extractLsb' 16 4 ∧ h = cmd.extractLsb' 0 16 := by
  have hword : encode (.btSet f h) = (0x20#8 ++ 0#4) ++ (f ++ h) := BitVec.append_assoc
  rw [hword, append_eq_iff_mask_match (n := 12) (m := 20) (mask := 0xFFF00000) (pattern := 0x20000000) rfl rfl,
    eq_comm (a := f ++ h), eq_append_iff (n := 4) (m := 16), BitVec.extractLsb'_extractLsb'_of_le (by decide),
    BitVec.extractLsb'_extractLsb'_of_le (by decide), eq_comm (b := f), eq_comm (b := h)]

theorem encode_btRd_eq_iff (cmd : Word) (k : Nibble) :
    encode (.btRd k) = cmd ↔ cmd &&& 0xFFFFFFF0 = 0x22000000 ∧ k = cmd.extractLsb' 0 4 :=
  append_eq_iff_mask_match (n := 28) (m := 4) (p := 0x22#8 ++ 0#20) rfl rfl cmd k

theorem encode_scNext_eq_iff (cmd : Word) (k : Nibble) :
    encode (.scNext k) = cmd ↔ cmd &&& 0xFFFFFFF0 = 0x30000000 ∧ k = cmd.extractLsb' 0 4 :=
  append_eq_iff_mask_match (n := 28) (m := 4) (p := 0x30#8 ++ 0#20) rfl rfl cmd k

end Sys2Proof.Proofs
end

section
/-! The word of a command as a number: the table of R48. -/

namespace Sys2Proof.Proofs

/-- The table of R48 as numbers. -/
def tableValue : Instr → Nat
  | .ckClr => 0x10000000
  | .ckByte imm8 => 0x11000000 + imm8.toNat
  | .ckWord imm16 => 0x12000000 + imm16.toNat
  | .ckRead => 0x13000000
  | .btSet sel imm16 => 0x20000000 + sel.toNat * 65536 + imm16.toNat
  | .btEnc => 0x21000000
  | .btRd sel => 0x22000000 + sel.toNat
  | .scNext sel => 0x30000000 + sel.toNat

theorem encode_toNat (i : Instr) : (encode i).toNat = tableValue i := by
  cases i with
  | ckClr => rfl
  | ckByte imm8 => exact toNat_append_eq_add _ _
  | ckWord imm16 => exact toNat_append_eq_add _ _
  | ckRead => rfl
  | btSet sel imm16 =>
    have hsel : (0x20#8 ++ 0#4 ++ sel).toNat = 0x2000 + sel.toNat := toNat_append_eq_add _ _
    rw [encode, toNat_append_eq_add, hsel, Nat.add_mul]
    rfl
  | btEnc => rfl
  | btRd sel => exact toNat_append_eq_add _ _
  | scNext sel => exact toNat_append_eq_add _ _

theorem encode_eq_ofNat (i : Instr) : encode i = BitVec.ofNat 32 (tableValue i) := by
  rw [← encode_toNat, BitVec.ofNat_toNat, BitVec.setWidth_eq]

/-- An operand added to a row's first word, as numbers and as 32-bit words. -/
theorem ofNat_add_toNat {w : Nat} (base : Nat) (x : BitVec w) :
    BitVec.ofNat 32 (base + x.toNat) = BitVec.ofNat 32 base + x.setWidth 32 := by
  rw [BitVec.ofNat_add, BitVec.ofNat_toNat]

theorem ofNat_mul_65536 (sel : Nibble) : BitVec.ofNat 32 (sel.toNat * 65536) = sel.setWidth 32 <<< 16 := by
  rw [BitVec.ofNat_mul, BitVec.ofNat_toNat, BitVec.shiftLeft_eq_mul_twoPow]
  rfl

/-- Settles O6: each word is its `tableValue` (`encode_eq_ofNat`), and a sum of numbers is the sum of their words. -/
theorem encodeFollowsAssemblerTable : Obligations.EncodeFollowsAssemblerTable := by
  refine ⟨rfl, fun b => ?_, fun h => ?_, rfl, fun f h => ?_, rfl, fun k => ?_, fun k => ?_⟩
  · exact (encode_eq_ofNat _).trans (ofNat_add_toNat _ b)
  · exact (encode_eq_ofNat _).trans (ofNat_add_toNat _ h)
  · rw [encode_eq_ofNat, tableValue, ofNat_add_toNat, BitVec.ofNat_add, ofNat_mul_65536]
    rfl
  · exact (encode_eq_ofNat _).trans (ofNat_add_toNat _ k)
  · exact (encode_eq_ofNat _).trans (ofNat_add_toNat _ k)

end Sys2Proof.Proofs
end

section
/-! The legal words as eight intervals of numbers, and how many there are (R43). -/

namespace Sys2Proof.Proofs

/-- The words of each row as numbers: the first one and how many there are (R43, R48). -/
def rowIntervals : Finset (Nat × Nat) :=
  {(0x10000000, 1), (0x11000000, 256), (0x12000000, 65536), (0x13000000, 1), (0x20000000, 7 * 65536), (0x21000000, 1),
   (0x22000000, 3), (0x30000000, 5)}

/-- The numbers of one row's words. -/
def rowWords (r : Nat × Nat) : Finset Nat := Finset.Ico r.1 (r.1 + r.2)

theorem mem_rowWords {r : Nat × Nat} {n : Nat} : n ∈ rowWords r ↔ r.1 ≤ n ∧ n < r.1 + r.2 := Finset.mem_Ico

theorem mem_biUnion_rowWords_iff (n : Nat) :
    n ∈ rowIntervals.biUnion rowWords ↔ ∃ i : Instr, i.wellFormed = true ∧ tableValue i = n := by
  simp only [Finset.mem_biUnion, mem_rowWords, rowIntervals, Finset.mem_insert, Finset.mem_singleton, exists_eq_or_imp,
    exists_eq_left]
  constructor
  · rintro (h | h | h | h | h | h | h | h)
    · exact ⟨.ckClr, rfl, by simp only [tableValue]; omega⟩
    · exact ⟨.ckByte (BitVec.ofNat 8 (n - 0x11000000)), rfl, by simp only [tableValue, BitVec.toNat_ofNat]; omega⟩
    · exact ⟨.ckWord (BitVec.ofNat 16 (n - 0x12000000)), rfl, by simp only [tableValue, BitVec.toNat_ofNat]; omega⟩
    · exact ⟨.ckRead, rfl, by simp only [tableValue]; omega⟩
    · exact ⟨.btSet (BitVec.ofNat 4 ((n - 0x20000000) / 65536)) (BitVec.ofNat 16 (n - 0x20000000)),
        (timeFieldSelLegal_iff _).mpr (by rw [BitVec.toNat_ofNat]; omega),
        by simp only [tableValue, BitVec.toNat_ofNat]; omega⟩
    · exact ⟨.btEnc, rfl, by simp only [tableValue]; omega⟩
    · exact ⟨.btRd (BitVec.ofNat 4 (n - 0x22000000)), (payloadSelLegal_iff _).mpr (by rw [BitVec.toNat_ofNat]; omega),
        by simp only [tableValue, BitVec.toNat_ofNat]; omega⟩
    · exact ⟨.scNext (BitVec.ofNat 4 (n - 0x30000000)), (counterSelLegal_iff _).mpr (by rw [BitVec.toNat_ofNat]; omega),
        by simp only [tableValue, BitVec.toNat_ofNat]; omega⟩
  · rintro ⟨i, hwf, rfl⟩
    cases i with
    | ckClr => simp [tableValue]
    | ckByte imm8 => have := imm8.isLt; simp only [tableValue]; omega
    | ckWord imm16 => have := imm16.isLt; simp only [tableValue]; omega
    | ckRead => simp [tableValue]
    | btSet sel imm16 =>
      have := imm16.isLt
      have := (timeFieldSelLegal_iff sel).mp hwf
      simp only [tableValue]; omega
    | btEnc => simp [tableValue]
    | btRd sel => have := (payloadSelLegal_iff sel).mp hwf; simp only [tableValue]; omega
    | scNext sel => have := (counterSelLegal_iff sel).mp hwf; simp only [tableValue]; omega

theorem rowIntervals_separate :
    ∀ r ∈ rowIntervals, ∀ q ∈ rowIntervals, r ≠ q → r.1 + r.2 ≤ q.1 ∨ q.1 + q.2 ≤ r.1 := by
  decide

theorem rowWords_disjoint : ∀ r ∈ rowIntervals, ∀ q ∈ rowIntervals, r ≠ q → Disjoint (rowWords r) (rowWords q) := by
  intro r hr q hq hne
  rw [Finset.disjoint_left]
  intro n hnr hnq
  rw [mem_rowWords] at hnr hnq
  have := rowIntervals_separate r hr q hq hne
  omega

theorem card_biUnion_rowWords : (rowIntervals.biUnion rowWords).card = 524555 := by
  rw [Finset.card_biUnion rowWords_disjoint]
  simp only [rowWords, Nat.card_Ico, Nat.add_sub_cancel_left]
  decide

theorem tableValue_lt (i : Instr) : tableValue i < 2 ^ 32 := encode_toNat i ▸ (encode i).isLt

/-- The numbers below 2^32 that decode are those of the eight rows. -/
theorem legal_words_eq_biUnion_rowWords :
    ((Finset.range (2 ^ 32)).filter fun n => (decode (BitVec.ofNat 32 n)).toOption.isSome = true) =
      rowIntervals.biUnion rowWords := by
  ext n
  rw [Finset.mem_filter, Finset.mem_range, mem_biUnion_rowWords_iff]
  constructor
  · rintro ⟨hlt, hsome⟩
    cases hd : decode (BitVec.ofNat 32 n) with
    | error e => rw [hd] at hsome; exact nomatch hsome
    | ok i =>
      obtain ⟨henc, hwf⟩ := encode_of_decode hd
      refine ⟨i, hwf, ?_⟩
      rw [← encode_toNat, henc, BitVec.toNat_ofNat, Nat.mod_eq_of_lt hlt]
  · rintro ⟨i, hwf, rfl⟩
    rw [← encode_eq_ofNat, decode_encode hwf]
    exact ⟨tableValue_lt i, rfl⟩

/-- Settles O4: `decode_eq_ok_iff` turns each row into the one word that encodes its command, and the count is that of the
eight intervals. -/
theorem wordSelectsTableRow : Obligations.WordSelectsTableRow := by
  refine ⟨fun cmd => ⟨?_, fun b => ?_, fun h => ?_, ?_, fun f h => ?_, ?_, fun k => ?_, fun k => ?_⟩, ?_⟩
  · exact (decode_ok_iff_encode_eq rfl).trans (eq_iff_full_mask_match cmd 0x10000000)
  · exact (decode_ok_iff_encode_eq rfl).trans (encode_ckByte_eq_iff cmd b)
  · exact (decode_ok_iff_encode_eq rfl).trans (encode_ckWord_eq_iff cmd h)
  · exact (decode_ok_iff_encode_eq rfl).trans (eq_iff_full_mask_match cmd 0x13000000)
  · rw [decode_eq_ok_iff, encode_btSet_eq_iff, Instr.wellFormed, timeFieldSelLegal_iff, and_assoc, and_assoc,
      and_comm (b := f.toNat ≤ 6)]
  · exact (decode_ok_iff_encode_eq rfl).trans (eq_iff_full_mask_match cmd 0x21000000)
  · rw [decode_eq_ok_iff, encode_btRd_eq_iff, Instr.wellFormed, payloadSelLegal_iff, and_assoc]
  · rw [decode_eq_ok_iff, encode_scNext_eq_iff, Instr.wellFormed, counterSelLegal_iff, and_assoc]
  · rw [legal_words_eq_biUnion_rowWords, card_biUnion_rowWords]

end Sys2Proof.Proofs
end

section
/-! The assembler: what it accepts is well-formed, and what it accepts at all (R48, R49). -/

namespace Sys2Proof.Proofs

open Sys2Proof.Machine

/-! #### Operands -/

@[simp] theorem imm8Operand_number (n : Nat) :
    imm8Operand (.number n) = if n < 256 then some (BitVec.ofNat 8 n) else none := rfl

@[simp] theorem imm16Operand_number (n : Nat) :
    imm16Operand (.number n) = if n < 65536 then some (BitVec.ofNat 16 n) else none := rfl

@[simp] theorem selectorOperand_number (names : List (List Char)) (n : Nat) :
    selectorOperand names (.number n) = if n < names.length then some (BitVec.ofNat 4 n) else none := rfl

/-- An accepted selector, written as a number or as a name, is below the number of names (R45). -/
theorem selectorOperand_toNat_lt {names : List (List Char)} {v : AsmOperand} {sel : Nibble}
    (h : selectorOperand names v = some sel) : sel.toNat < names.length := by
  have hlt : ∀ k < names.length, (BitVec.ofNat 4 k).toNat < names.length := fun k hk =>
    lt_of_le_of_lt (BitVec.toNat_ofNat k 4 ▸ Nat.mod_le _ _) hk
  cases v with
  | number n =>
    rw [selectorOperand_number, Option.ite_none_right_eq_some] at h
    obtain ⟨hn, hsel⟩ := h
    obtain rfl := Option.some.inj hsel
    exact hlt n hn
  | name c =>
    obtain ⟨k, hk, rfl⟩ := Option.map_eq_some_iff.mp h
    exact hlt k (List.findIdx?_eq_some_iff_findIdx_eq.mp hk).1

theorem btSet_wellFormed_of_selectorOperand {v : AsmOperand} {sel : Nibble} (imm16 : Half)
    (h : selectorOperand timeFieldNames v = some sel) : (Instr.btSet sel imm16).wellFormed = true :=
  (timeFieldSelLegal_iff sel).mpr (Nat.le_of_lt_succ (selectorOperand_toNat_lt h))

theorem btRd_wellFormed_of_selectorOperand {v : AsmOperand} {sel : Nibble}
    (h : selectorOperand payloadNames v = some sel) : (Instr.btRd sel).wellFormed = true :=
  (payloadSelLegal_iff sel).mpr (Nat.le_of_lt_succ (selectorOperand_toNat_lt h))

theorem scNext_wellFormed_of_selectorOperand {v : AsmOperand} {sel : Nibble}
    (h : selectorOperand counterNames v = some sel) : (Instr.scNext sel).wellFormed = true :=
  (counterSelLegal_iff sel).mpr (Nat.le_of_lt_succ (selectorOperand_toNat_lt h))

/-! #### Expansions -/

/-- Every command of a line is well-formed. -/
def AllWellFormed (is : List Instr) : Prop := ∀ i ∈ is, i.wellFormed = true

theorem allWellFormed_singleton {i : Instr} (h : i.wellFormed = true) : AllWellFormed [i] := by
  simpa [AllWellFormed] using h

/-- A line made of one accepted operand value is well-formed if it is so for each value the operand can have. -/
theorem allWellFormed_of_map {α : Type} {x : Option α} {f : α → List Instr} {is : List Instr}
    (hf : ∀ a, x = some a → AllWellFormed (f a)) (h : x.map f = some is) : AllWellFormed is := by
  obtain ⟨a, ha, rfl⟩ := Option.map_eq_some_iff.mp h
  exact hf a ha

theorem pushesByWord_allWellFormed (b : List Byte) : AllWellFormed (pushesByWord b) := by
  induction b using pushesByWord.induct with
  | case1 x y rest ih => exact List.forall_mem_cons.mpr ⟨rfl, ih⟩
  | case2 x => exact allWellFormed_singleton rfl
  | case3 => exact nofun

theorem ckSum_allWellFormed (b : List Byte) : AllWellFormed (ckSum b) := by
  intro i hi
  simp only [ckSum, List.mem_append, List.mem_singleton, List.mem_map, or_assoc] at hi
  rcases hi with rfl | ⟨x, -, rfl⟩ | rfl <;> rfl

theorem ckSumW_allWellFormed (b : List Byte) : AllWellFormed (ckSumW b) := by
  intro i hi
  simp only [ckSumW, List.mem_append, List.mem_singleton, or_assoc] at hi
  rcases hi with rfl | hi | rfl
  · rfl
  · exact pushesByWord_allWellFormed b i hi
  · rfl

theorem btTime_allWellFormed (t : TimeFields) : AllWellFormed (btTime t) := by
  simp [AllWellFormed, btTime, Instr.wellFormed, timeFieldSelLegal_iff]

theorem btPayload_allWellFormed : AllWellFormed btPayload := by unfold AllWellFormed; decide

/-- The assembler accepts well-formed commands only: the operands of each command are of its widths and its selector is
one of the names or numbers of its space (R45, R48, R49). -/
theorem assembleCommands_allWellFormed {l : AsmLine} {is : List Instr} (h : assembleCommands l = some is) :
    AllWellFormed is := by
  unfold assembleCommands at h
  split at h
  case h_1 => exact Option.some.inj h ▸ allWellFormed_singleton rfl
  case h_2 => exact allWellFormed_of_map (fun _ _ => allWellFormed_singleton rfl) h
  case h_3 => exact allWellFormed_of_map (fun _ _ => allWellFormed_singleton rfl) h
  case h_4 => exact Option.some.inj h ▸ allWellFormed_singleton rfl
  case h_5 =>
    split at h
    next sel imm16 hsel _ =>
      exact Option.some.inj h ▸ allWellFormed_singleton (btSet_wellFormed_of_selectorOperand imm16 hsel)
    next => exact nomatch h
  case h_6 => exact Option.some.inj h ▸ allWellFormed_singleton rfl
  case h_7 =>
    exact allWellFormed_of_map (fun _ hsel => allWellFormed_singleton (btRd_wellFormed_of_selectorOperand hsel)) h
  case h_8 =>
    exact allWellFormed_of_map (fun _ hsel => allWellFormed_singleton (scNext_wellFormed_of_selectorOperand hsel)) h
  case h_9 => exact allWellFormed_of_map (fun b _ => ckSum_allWellFormed b) h
  case h_10 => exact allWellFormed_of_map (fun b _ => ckSumW_allWellFormed b) h
  case h_11 =>
    split at h
    · exact Option.some.inj h ▸ btTime_allWellFormed _
    · exact nomatch h
  case h_12 => exact Option.some.inj h ▸ btPayload_allWellFormed
  case h_13 => exact nomatch h

/-- Settles O7: every assembled word is `encode` of a well-formed command, which `decode_encode` gives back. -/
theorem assemblerNeverProducesIllegalWord : Obligations.AssemblerNeverProducesIllegalWord := by
  intro l cmds h cmd hcmd
  obtain ⟨is, his, rfl⟩ := Option.map_eq_some_iff.mp h
  obtain ⟨i, hi, rfl⟩ := List.mem_map.mp hcmd
  exact ⟨i, decode_encode (assembleCommands_allWellFormed his i hi)⟩

/-! #### Numeric operands -/

theorem encode_eq_ofNat_of_tableValue {i : Instr} {n : Nat} (h : tableValue i = n) : encode i = BitVec.ofNat 32 n :=
  h ▸ encode_eq_ofNat i

theorem toNat_ofNat_of_lt {w n : Nat} (h : n < 2 ^ w) : (BitVec.ofNat w n).toNat = n := by
  rw [BitVec.toNat_ofNat, Nat.mod_eq_of_lt h]

/-- A command with one operand, which is accepted exactly under `p`. -/
theorem assemble_ite {α : Type} {p : Prop} [Decidable p] {a : α} {mk : α → Instr} {w : Nat}
    (h : p → tableValue (mk a) = w) :
    (((if p then some a else none).map fun x => [mk x]).map fun is => is.map encode) =
      if p then some [BitVec.ofNat 32 w] else none := by
  by_cases hp : p
  · simp [hp, encode_eq_ofNat_of_tableValue (h hp)]
  · simp [hp]

theorem assemble_btSet_number (n m : Nat) :
    assemble { mnemonic := .btSet, operands := [.number n, .number m] } =
      if n ≤ 6 ∧ m < 65536 then some [BitVec.ofNat 32 (0x20000000 + n * 65536 + m)] else none := by
  have hlength : timeFieldNames.length = 7 := rfl
  simp only [assemble, assembleCommands, selectorOperand_number, imm16Operand_number, hlength,
    Nat.lt_succ_iff (n := 6)]
  by_cases hn : n ≤ 6
  · by_cases hm : m < 65536
    · have hvalue : tableValue (.btSet (BitVec.ofNat 4 n) (BitVec.ofNat 16 m)) = 0x20000000 + n * 65536 + m := by
        rw [tableValue, toNat_ofNat_of_lt (by omega), toNat_ofNat_of_lt hm]
      simp [hn, hm, encode_eq_ofNat_of_tableValue hvalue]
    · simp [hn, hm]
  · simp [hn]

theorem assemble_btRd_number (n : Nat) :
    assemble { mnemonic := .btRd, operands := [.number n] } =
      if n ≤ 2 then some [BitVec.ofNat 32 (0x22000000 + n)] else none := by
  have hlength : payloadNames.length = 3 := rfl
  simp only [assemble, assembleCommands, selectorOperand_number, hlength, Nat.lt_succ_iff (n := 2)]
  exact assemble_ite fun hn => by rw [tableValue, toNat_ofNat_of_lt (by omega)]

theorem assemble_scNext_number (n : Nat) :
    assemble { mnemonic := .scNext, operands := [.number n] } =
      if n ≤ 4 then some [BitVec.ofNat 32 (0x30000000 + n)] else none := by
  have hlength : counterNames.length = 5 := rfl
  simp only [assemble, assembleCommands, selectorOperand_number, hlength, Nat.lt_succ_iff (n := 4)]
  exact assemble_ite fun hn => by rw [tableValue, toNat_ofNat_of_lt (by omega)]

/-- Settles O8: each operand is accepted exactly under its bound (`assemble_ite`), where the command's word is the number of
R48's table. -/
theorem assemblerRefusesWhatDoesNotFit : Obligations.AssemblerRefusesWhatDoesNotFit := by
  intro n m
  refine ⟨?_, ?_, assemble_btSet_number n m, assemble_btRd_number n, assemble_scNext_number n⟩
  · exact assemble_ite (mk := .ckByte) fun hn => by rw [tableValue, toNat_ofNat_of_lt hn]
  · exact assemble_ite (mk := .ckWord) fun hn => by rw [tableValue, toNat_ofNat_of_lt hn]

end Sys2Proof.Proofs
end

section
/-! ChecksumEngine: the meanings of its four commands written out (`40_checksum.md`, R59 to R62), and the illegal words of
their rows (R44, R98). -/

namespace Sys2Proof.Proofs

open Sys2Proof.Machine

theorem exec_ckClr (s : State) : exec .ckClr s = .next (respond 0 { s with ck := CkRegs.cleared }) := rfl

theorem exec_ckByte (b : Byte) (s : State) :
    exec (.ckByte b) s = .next (respond 0 { s with ck := pushByte b s.ck }) := rfl

theorem exec_ckWord (h : Half) (s : State) :
    exec (.ckWord h) s = .next (respond 0 { s with ck := pushByte (laterByte h) (pushByte (earlierByte h) s.ck) }) := rfl

theorem exec_ckRead (s : State) : exec .ckRead s = .next (respond (zext32 s.ck.acc) s) := rfl

@[simp] theorem zext32_toNat (v : Half) : (zext32 v).toNat = v.toNat := BitVec.toNat_setWidth_of_le (by decide)

@[simp] theorem littleEndianWord_earlierByte_laterByte (h : Half) :
    littleEndianWord (earlierByte h) (laterByte h) = h := BitVec.extractLsb'_append_extractLsb'

/-- The 16-bit addition drops the carry (R56, R60). -/
theorem add_eq_ofNat_mod (a w : Half) : a + w = BitVec.ofNat 16 ((a.toNat + w.toNat) % 65536) := by
  apply BitVec.eq_of_toNat_eq
  rw [BitVec.toNat_add, BitVec.toNat_ofNat, Nat.mod_mod]

/-- R60 written out: the first byte of a word waits, the second completes the word. -/
theorem pushByte_eq (b : Byte) (c : CkRegs) :
    pushByte b c =
      if c.lv = false then { c with low := b, lv := true }
      else
        { acc := if c.hv = true then BitVec.ofNat 16 ((c.acc.toNat + c.hold.toNat) % 65536) else c.acc
          hold := b ++ c.low, hv := true, low := 0, lv := false } := by
  rw [← add_eq_ofNat_mod]
  cases hlv : c.lv with
  | false => exact pushByte_first b c hlv
  | true => exact pushByte_second b c hlv

/-- R61 written out: at an even position the operand is the word completed; at an odd one its low byte completes the word
and its high byte waits. -/
theorem pushByte_laterByte_earlierByte (h : Half) (c : CkRegs) :
    pushByte (laterByte h) (pushByte (earlierByte h) c) =
      { acc := if c.hv = true then BitVec.ofNat 16 ((c.acc.toNat + c.hold.toNat) % 65536) else c.acc
        hold := if c.lv = false then h else earlierByte h ++ c.low
        hv := true
        low := if c.lv = false then 0 else laterByte h
        lv := c.lv } := by
  rw [← add_eq_ofNat_mod]
  cases hlv : c.lv with
  | false =>
    rw [pushByte_first _ c hlv, pushByte_second _ _ rfl, littleEndianWord_earlierByte_laterByte]
    rfl
  | true =>
    rw [pushByte_second _ c hlv, pushByte_first _ _ rfl]
    rfl

theorem answeredIllegal_of_row {cmd : Word} {x : Except DecodeError Instr} (hrow : decode cmd = x)
    (herror : ∃ e, x = .error e) : AnsweredIllegal cmd := by
  obtain ⟨e, rfl⟩ := herror
  exact answeredIllegal_of_decode_error hrow

/-- Settles O15: the effect is `exec_ckClr`, the illegal words are those format Z refuses. -/
theorem ckClrClears : Obligations.CkClrClears :=
  ⟨exec_ckClr, rfl, fun cmd hop harg => answeredIllegal_of_row (decode_ckClr_row hop) ((decodeZ_error_iff cmd _).mpr harg)⟩

/-- Settles O16 by `pushByte_eq`; the illegal words are those format B refuses. -/
theorem ckBytePushesOneByte : Obligations.CkBytePushesOneByte := by
  refine ⟨fun b s => ?_, fun b => ?_, fun cmd hop harg => ?_⟩
  · rw [exec_ckByte, pushByte_eq]
    rfl
  · exact (encode_eq_ofNat _).trans (ofNat_add_toNat _ b)
  · exact answeredIllegal_of_row (decode_ckByte_row hop) ((decodeB_error_iff cmd _).mpr harg)

/-- Settles O17: `CK_WORD` is the two pushes by `exec_ckWord`, and `pushByte_laterByte_earlierByte` writes them out (also
where the pending byte is not 0); the illegal words are those format H refuses. -/
theorem ckWordIsTwoCkBytes : Obligations.CkWordIsTwoCkBytes := by
  refine ⟨fun h s => ?_, fun h s _ => ?_, fun h => ?_, fun cmd hop harg => ?_⟩
  · exact ⟨_, _, exec_ckByte _ s, exec_ckByte _ _, exec_ckWord h s⟩
  · rw [exec_ckWord, pushByte_laterByte_earlierByte]
    rfl
  · exact (encode_eq_ofNat _).trans (ofNat_add_toNat _ h)
  · exact answeredIllegal_of_row (decode_ckWord_row hop) ((decodeH_error_iff cmd _).mpr harg)

/-- Settles O18: by `exec_ckRead` the response is all that changes, and zero extension keeps the number. -/
theorem ckReadReturnsAccumulator : Obligations.CkReadReturnsAccumulator := by
  refine ⟨fun s => ?_, rfl, fun cmd hop harg => ?_⟩
  · exact ⟨_, exec_ckRead s, ⟨rfl, rfl, rfl⟩, rfl, _, respond_responses s _, rfl, zext32_toNat _⟩
  · exact answeredIllegal_of_row (decode_ckRead_row hop) ((decodeZ_error_iff cmd _).mpr harg)

end Sys2Proof.Proofs
end

section
/-! `CKSUM` as a sum of 16-bit words, and the summed words by index (R55, R56, R58). -/

namespace Sys2Proof.Proofs

open Sys2Proof.Machine

/-- Reducing once at the end is adding in 16 bits (R56). -/
theorem ofNat_sum_map_toNat (ws : List Half) : BitVec.ofNat 16 (ws.map BitVec.toNat).sum = ws.sum := by
  induction ws with
  | nil => rfl
  | cons w ws ih =>
    rw [List.map_cons, List.sum_cons, List.sum_cons, BitVec.ofNat_add, ih, BitVec.ofNat_toNat, BitVec.setWidth_eq]

theorem cksum_eq_sum (b : List Byte) : cksum b = (completeWords b).dropLast.sum := ofNat_sum_map_toNat _

/-- Settles O23: a sum of 16-bit words (`cksum_eq_sum`) is the same in any order, and it is a fold of the addition that drops
the carry. -/
theorem checksumIgnoresWordOrder : Obligations.ChecksumIgnoresWordOrder := by
  refine fun b c => ⟨fun hperm => ?_, ?_⟩
  · rw [cksum_eq_sum, cksum_eq_sum, hperm.sum_eq]
  · simp only [← add_eq_ofNat_mod]
    rw [cksum_eq_sum, List.sum_eq_foldl]

/-- Settles O20: fewer than four bytes make at most one complete word, so none is summed; four make two. -/
theorem cksumOfShortBufferIsZero : Obligations.CksumOfShortBufferIsZero := by
  constructor
  · intro b hlength
    have hnone : (completeWords b).dropLast = [] := by
      apply List.eq_nil_of_length_eq_zero
      rw [List.length_dropLast, completeWords_length]
      omega
    rw [cksum_eq_sum, hnone, List.sum_nil]
  · intro x y u v
    rw [cksum_eq_sum]
    exact List.sum_singleton

/-! #### The words by index -/

/-- `w[k]` = `b[2k] + 256 * b[2k+1]` (R55). -/
def wordAt (b : List Byte) (k : Nat) : Half := littleEndianWord (b.getD (2 * k) 0) (b.getD (2 * k + 1) 0)

theorem wordAt_toNat (b : List Byte) (k : Nat) :
    (wordAt b k).toNat = (b.getD (2 * k) 0).toNat + 256 * (b.getD (2 * k + 1) 0).toNat := littleEndianWord_toNat _ _

theorem completeWords_eq_map_wordAt (b : List Byte) : completeWords b = (List.range (b.length / 2)).map (wordAt b) := by
  induction b using completeWords.induct with
  | case1 x y rest ih =>
    have hlength : (x :: y :: rest).length / 2 = rest.length / 2 + 1 := Nat.add_div_right _ Nat.two_pos
    rw [completeWords_cons, ih, hlength, List.range_succ_eq_map, List.map_cons, List.map_map]
    rfl
  | case2 b hshort =>
    match b, hshort with
    | [], _ => rfl
    | [_], _ => simp
    | x :: y :: rest, hshort => exact absurd rfl (hshort x y rest)

theorem dropLast_completeWords (b : List Byte) :
    (completeWords b).dropLast = (List.range (b.length / 2 - 1)).map (wordAt b) := by
  rw [List.dropLast_eq_take, completeWords_length, completeWords_eq_map_wordAt, ← List.map_take, List.take_range,
    Nat.min_eq_left (Nat.sub_le _ _)]

/-- Settles O19: the summed words are `wordAt b k` for `k` below the index of the last one. -/
theorem cksumByIndex : Obligations.CksumByIndex := by
  intro b
  simp only [← wordAt_toNat]
  rw [cksum, dropLast_completeWords, List.map_map, BitVec.toNat_ofNat]
  rfl

end Sys2Proof.Proofs
end

section
/-! BCD packing: a byte of two decimal digits, by its digits and by the number they show (`41_bcd_time.md`, R70). -/

namespace Sys2Proof.Proofs

open Sys2Proof.Machine

/-- Two digits packed as numbers are two nibbles side by side. -/
theorem ofNat_shiftLeft_or_eq_append {hi lo : Nat} (hhi : hi < 2 ^ 4) (hlo : lo < 2 ^ 4) :
    BitVec.ofNat 8 ((hi <<< 4) ||| lo) = BitVec.ofNat 4 hi ++ BitVec.ofNat 4 lo := by
  have happend : (BitVec.ofNat 4 hi ++ BitVec.ofNat 4 lo).toNat = (hi <<< 4) ||| lo := by
    rw [BitVec.toNat_append, toNat_ofNat_of_lt hhi, toNat_ofNat_of_lt hlo]
  rw [← happend, BitVec.ofNat_toNat, BitVec.setWidth_eq]

theorem highDigit_ofNat_shiftLeft_or {hi lo : Nat} (hhi : hi < 2 ^ 4) (hlo : lo < 2 ^ 4) :
    highDigit (BitVec.ofNat 8 ((hi <<< 4) ||| lo)) = hi := by
  rw [highDigit, ofNat_shiftLeft_or_eq_append hhi hlo, BitVec.extractLsb'_append_eq_left, toNat_ofNat_of_lt hhi]

theorem lowDigit_ofNat_shiftLeft_or {hi lo : Nat} (hhi : hi < 2 ^ 4) (hlo : lo < 2 ^ 4) :
    lowDigit (BitVec.ofNat 8 ((hi <<< 4) ||| lo)) = lo := by
  rw [lowDigit, ofNat_shiftLeft_or_eq_append hhi hlo, BitVec.extractLsb'_append_eq_right, toNat_ofNat_of_lt hlo]

theorem isBcd_iff (b : Byte) : isBcd b = true ↔ highDigit b ≤ 9 ∧ lowDigit b ≤ 9 := by simp [isBcd]

section
variable {v : Nat}

theorem highDigit_bcd2 (hv : v ≤ 99) : highDigit (bcd2 v) = v / 10 :=
  highDigit_ofNat_shiftLeft_or (by omega) (by omega)

theorem lowDigit_bcd2 (hv : v ≤ 99) : lowDigit (bcd2 v) = v % 10 :=
  lowDigit_ofNat_shiftLeft_or (by omega) (by omega)

theorem isBcd_bcd2 (hv : v ≤ 99) : isBcd (bcd2 v) = true := by
  rw [isBcd_iff, highDigit_bcd2 hv, lowDigit_bcd2 hv]
  omega

/-- The number a packed byte shows is the one that was packed. -/
theorem digits_bcd2 (hv : v ≤ 99) : 10 * highDigit (bcd2 v) + lowDigit (bcd2 v) = v := by
  rw [highDigit_bcd2 hv, lowDigit_bcd2 hv, Nat.div_add_mod]

end

/-- Settles O27: the digits are `highDigit_bcd2` and `lowDigit_bcd2`, and `digits_bcd2` reads the number back. -/
theorem bcd2ShowsDecimalDigits : Obligations.Bcd2ShowsDecimalDigits := by
  refine ⟨fun v hv => ⟨highDigit_bcd2 hv, lowDigit_bcd2 hv, isBcd_bcd2 hv⟩, fun v w hv hw heq => ?_⟩
  rw [← digits_bcd2 hv, heq, digits_bcd2 hw]

end Sys2Proof.Proofs
end

section
/-! BcdTimeEncoder: the meanings of its three commands written out (`41_bcd_time.md`, R74 to R77), and the illegal words
of the rows with a selector (R44, R98). -/

namespace Sys2Proof.Proofs

open Sys2Proof.Machine

theorem exec_btEnc (s : State) : exec .btEnc s = execBtEnc s := rfl

theorem exec_btSet_selOfField (f : TimeField) (v : Half) (s : State) :
    exec (.btSet (selOfField f) v) s = .next (respond 0 { s with bt := storeField f v s.bt }) := by
  rw [exec, execBtSet, timeFieldOfSel_selOfField]

theorem exec_btRd_of_sel {sel : Nibble} {k : PayloadWord} (h : payloadWordOfSel sel = some k) (s : State) :
    exec (.btRd sel) s = .next (readPayload Config.params k s) := by
  rw [exec, execBtRd, h]

/-- A read after a write, at the written field and at the other six (R14, R75). -/
theorem readField_writeField (t : TimeFields) (f g : TimeField) (v : Half) :
    readField (writeField t f v) g = if g = f then v else readField t g := by
  by_cases h : g = f
  · rw [if_pos h, h, readField_writeField_same]
  · rw [if_neg h, readField_writeField_other t v h]

/-- `BT_RD` changes nothing but the record of responses, in both of its cases (R77, R99). -/
theorem readPayload_eq (p : Params) (k : PayloadWord) (s : State) :
    readPayload p k s = { s with responses := s.responses ++
      [if s.bt.valid = true then { status := .ok, data := payloadWord p s.bt.out k }
       else { status := .notReady, data := 0 }] } := by
  by_cases hvalid : s.bt.valid = true
  · rw [readPayload, if_pos hvalid, if_pos hvalid]
    rfl
  · rw [readPayload, if_neg hvalid, if_neg hvalid]
    rfl

theorem btSet_row_answeredIllegal {cmd : Word} (hop : opField cmd = 0x20)
    (hbad : cmd.extractLsb' 20 4 ≠ 0 ∨ 6 < (cmd.extractLsb' 16 4).toNat) : AnsweredIllegal cmd :=
  answeredIllegal_of_row (decode_btSet_row hop)
    ((decodeF_error_iff cmd _ _).mpr (by rwa [timeFieldSelLegal_iff, Nat.not_le]))

theorem btRd_row_answeredIllegal {cmd : Word} (hop : opField cmd = 0x22)
    (hbad : cmd.extractLsb' 4 20 ≠ 0 ∨ 2 < (cmd.extractLsb' 0 4).toNat) : AnsweredIllegal cmd :=
  answeredIllegal_of_row (decode_btRd_row hop)
    ((decodeS_error_iff cmd _ _).mpr (by rwa [payloadSelLegal_iff, Nat.not_le]))

/-- Settles O28: the effect is `exec_btSet_selOfField`, of which `readField_writeField` says what each field holds. -/
theorem btSetLoadsOneField : Obligations.BtSetLoadsOneField := by
  obtain ⟨-, -, -, -, hword, -⟩ := encodeFollowsAssemblerTable
  refine ⟨fun f v s => ?_, hword, fun cmd => btSet_row_answeredIllegal⟩
  exact ⟨_, exec_btSet_selOfField f v s, fun g => readField_writeField _ f g v, rfl, outBytes_zero, rfl, rfl, rfl,
    respond_responses _ _⟩

/-- Settles O30, by whether the fields are in range: `execBtEnc_inRange` answers OK, `execBtEnc_outOfRange` raises
`E_RANGE`. -/
theorem btEncSucceedsExactlyInRange : Obligations.BtEncSucceedsExactlyInRange := by
  intro s
  rw [exec_btEnc, ← inRange_iff]
  cases hrange : inRange s.bt.fields with
  | true =>
    exact ⟨_, _, execBtEnc_inRange hrange, respond_responses _ _, rfl, rfl, iff_of_true rfl rfl, absurd rfl⟩
  | false =>
    obtain ⟨f, hexec⟩ := execBtEnc_outOfRange hrange
    exact ⟨_, _, hexec, raiseError_responses _ _, rfl, rfl, iff_of_false nofun nofun, fun _ => ⟨rfl, rfl, rfl, rfl⟩⟩

/-- Settles O34: each selector names its payload word, and `readPayload_eq` is the answer. -/
theorem btRdReadsThePayload : Obligations.BtRdReadsThePayload := by
  obtain ⟨-, -, -, -, -, -, hword, -⟩ := encodeFollowsAssemblerTable
  refine ⟨fun s => ?_, hword, fun cmd => btRd_row_answeredIllegal⟩
  have hanswer {sel : Nibble} {k : PayloadWord} (h : payloadWordOfSel sel = some k) :=
    (exec_btRd_of_sel h s).trans (congrArg Host.Outcome.next (readPayload_eq Config.params k s))
  exact ⟨hanswer (k := .control) rfl, hanswer (k := .outLow) rfl, hanswer (k := .outHigh) rfl⟩

end Sys2Proof.Proofs
end

section
/-! SequenceCounters: the meaning of `SC_NEXT` written out, what a step does to the counters, and a run of draws
(`42_sequence_counters.md`, R86 to R88). -/

namespace Sys2Proof.Proofs

open Sys2Proof.Machine

/-! #### One `SC_NEXT` -/

theorem exec_scNext_selOfCounter (i : CounterId) (s : State) :
    exec (.scNext (selOfCounter i)) s = .next (advanceCounter Config.params i s) := by
  rw [exec, execScNext, counterOfSel_selOfCounter]

/-- Every counter fits the data word of a response (R17, R88). -/
@[simp] theorem toNat_ofNat_readCounter (c : ScRegs) (i : CounterId) :
    (BitVec.ofNat 32 (readCounter c i)).toNat = readCounter c i := toNat_ofNat_of_lt (readCounter_lt_word c i)

/-- The value returned is the one before the advance (R88). -/
theorem advanceCounter_returns (p : Params) (i : CounterId) (s : State) :
    ∃ r, (advanceCounter p i s).responses = s.responses ++ [r] ∧ r.status = .ok ∧
      r.data.toNat = readCounter s.sc i :=
  ⟨_, respond_responses _ _, rfl, toNat_ofNat_readCounter _ _⟩

theorem le_counterMax_iff_lt_counterMod (p : Params) (i : CounterId) (v : Nat) :
    v ≤ counterMax p i ↔ v < counterMod p i := by
  rw [← counterMax_succ, Nat.lt_succ_iff]

theorem scNext_row_answeredIllegal {cmd : Word} (hop : opField cmd = 0x30)
    (hbad : cmd.extractLsb' 4 20 ≠ 0 ∨ 4 < (cmd.extractLsb' 0 4).toNat) : AnsweredIllegal cmd :=
  answeredIllegal_of_row (decode_scNext_row hop)
    ((decodeS_error_iff cmd _ _).mpr (by rwa [counterSelLegal_iff, Nat.not_le]))

/-- Settles O37: the effect is `exec_scNext_selOfCounter`; below the maximum the two forms of the advance agree by
`nextCount_eq_mod`. -/
theorem scNextReturnsThenAdvances : Obligations.ScNextReturnsThenAdvances := by
  obtain ⟨-, -, -, -, -, -, -, hword⟩ := encodeFollowsAssemblerTable
  refine ⟨fun i s hle => ?_, hword, fun cmd => scNext_row_answeredIllegal⟩
  obtain ⟨r, hresponses, hstatus, hdata⟩ := advanceCounter_returns Config.params i s
  have hmod := advanceCounter_readCounter Config.params i s hle
  have hlt := (le_counterMax_iff_lt_counterMod _ _ _).mp hle
  exact ⟨_, r, exec_scNext_selOfCounter i s, hresponses, hstatus, hdata, hdata.trans_lt hlt,
    hmod.trans (nextCount_eq_mod _ _ _ hle).symm, hmod, fun k hk => advanceCounter_other _ s hk, rfl, rfl, rfl⟩

/-! #### What a command and a step can do to the counters -/

/-- A command leaves every counter as it was, or it is an `SC_NEXT` that advances one (R18). -/
theorem exec_counters_cases {c : Instr} {s t : State} (h : exec c s = .next t) :
    t.sc = s.sc ∨ ∃ i, c = .scNext (selOfCounter i) ∧ t = advanceCounter Config.params i s := by
  rcases exec_cases c s with ⟨_, _, _, hexec⟩ | ⟨_, _, _, hexec⟩ | ⟨_, _, hunit, -⟩ | ⟨_, hexec⟩
  · exact .inl (Host.Outcome.next.inj (h.symm.trans hexec) ▸ rfl)
  · exact .inl (Host.Outcome.next.inj (h.symm.trans hexec) ▸ rfl)
  · cases c with
    | scNext sel =>
      cases hsel : counterOfSel sel with
      | some i =>
        obtain rfl := counterOfSel_some hsel
        exact .inr ⟨i, rfl, (Host.Outcome.next.inj ((exec_scNext_selOfCounter i s).symm.trans h)).symm⟩
      | none =>
        rw [exec, execScNext, hsel] at h
        exact .inl (Host.Outcome.next.inj h ▸ raiseError_sc _ _)
    | _ => exact nomatch hunit
  · exact .inl (Host.Outcome.next.inj (h.symm.trans hexec) ▸ rfl)

/-- A step leaves every counter as it was, resets them all, or advances one (R6, R26, R88). -/
theorem step_counters_cases {s t : State} (h : step s = .next t) :
    t.sc = s.sc ∨ t.sc = ScRegs.reset ∨ ∃ i, t = advanceCounter Config.params i (takeEvent s) := by
  rcases step_cases s with ⟨-, hstep⟩ | ⟨_, _, -, hstep⟩ | ⟨_, _, _, -, -, hstep⟩ | ⟨_, _, _, -, -, hstep⟩
  · exact .inl (Host.Outcome.next.inj (h.symm.trans hstep) ▸ rfl)
  · exact .inr (.inl (Host.Outcome.next.inj (h.symm.trans hstep) ▸ rfl))
  · rcases exec_counters_cases (hstep.symm.trans h) with hsame | ⟨i, -, hadvance⟩
    · exact .inl hsame
    · exact .inr (.inr ⟨i, hadvance⟩)
  · exact .inl (Host.Outcome.next.inj (h.symm.trans hstep) ▸ rfl)

/-- An advance of any counter keeps counter `i` at or below its maximum (R24 point 5). -/
theorem advanceCounter_le_counterMax (p : Params) {i : CounterId} (k : CounterId) {s : State}
    (hle : readCounter s.sc i ≤ counterMax p i) : readCounter (advanceCounter p k s).sc i ≤ counterMax p i := by
  by_cases hik : i = k
  · subst hik
    rw [advanceCounter_readCounter p i s hle, le_counterMax_iff_lt_counterMod]
    exact Nat.mod_lt _ (counterMod_pos p i)
  · rwa [advanceCounter_other p s hik]

/-- Every step keeps counter `i` at or below its maximum (R24 point 5). -/
theorem step_le_counterMax {i : CounterId} {s t : State} (hle : readCounter s.sc i ≤ counterMax Config.params i)
    (h : step s = .next t) : readCounter t.sc i ≤ counterMax Config.params i := by
  rcases step_counters_cases h with hsame | hreset | ⟨k, rfl⟩
  · rwa [hsame]
  · rw [hreset, readCounter_reset]
    exact Nat.zero_le _
  · exact advanceCounter_le_counterMax _ k hle

/-! #### A run of draws -/

theorem wordState_scNext (i : CounterId) (s : State) :
    wordState s (encode (.scNext (selOfCounter i))) = advanceCounter Config.params i s := by
  have hwf : (Instr.scNext (selOfCounter i)).wellFormed = true := by cases i <;> rfl
  rw [wordState_legal s (decode_encode hwf), exec_scNext_selOfCounter, nextOr_next]

/-- A run of `n` times `SC_NEXT i` is `n` advances. -/
theorem runCommands_replicate_scNext (i : CounterId) (n : Nat) (s : State) :
    runCommands (List.replicate n (.scNext (selOfCounter i))) s =
      .next ((advanceCounter Config.params i)^[n] s) := by
  rw [runCommands, runWords_eq_foldl, List.map_replicate]
  congr 1
  induction n generalizing s with
  | zero => rfl
  | succ n ih => rw [List.replicate_succ, List.foldl_cons, wordState_scNext, ih, Function.iterate_succ_apply]

/-- After `n` advances a counter holds its first value plus `n`, modulo `MOD[i]` (R87). -/
theorem readCounter_iterate_advanceCounter (p : Params) (i : CounterId) (n : Nat) {s : State}
    (hle : readCounter s.sc i ≤ counterMax p i) :
    readCounter ((advanceCounter p i)^[n] s).sc i = (readCounter s.sc i + n) % counterMod p i := by
  induction n with
  | zero => exact (Nat.mod_eq_of_lt ((le_counterMax_iff_lt_counterMod _ _ _).mp hle)).symm
  | succ n ih =>
    have hbound : readCounter ((advanceCounter p i)^[n] s).sc i ≤ counterMax p i := by
      rw [ih, le_counterMax_iff_lt_counterMod]
      exact Nat.mod_lt _ (counterMod_pos p i)
    rw [Function.iterate_succ_apply', advanceCounter_readCounter p i _ hbound, ih, Nat.mod_add_mod, Nat.add_assoc]

/-- `MAX[i]` draws take a counter from 0 to `MAX[i]` (R86). -/
theorem readCounter_iterate_counterMax (p : Params) (i : CounterId) {s : State} (hzero : readCounter s.sc i = 0) :
    readCounter ((advanceCounter p i)^[counterMax p i] s).sc i = counterMax p i := by
  rw [readCounter_iterate_advanceCounter p i _ (hzero ▸ Nat.zero_le _), hzero, Nat.zero_add,
    Nat.mod_eq_of_lt ((le_counterMax_iff_lt_counterMod p i _).mp le_rfl)]

/-! #### The moduli -/

theorem tfcModulus_value_cases (m : TfcModulus) : m.value = 16777215 ∨ m.value = 16777216 := by
  cases m with
  | literal => exact .inl rfl
  | wholeRange => exact .inr rfl

theorem counterMax_tfc_cases (p : Params) : counterMax p .tfc = 16777214 ∨ counterMax p .tfc = 16777215 :=
  (tfcModulus_value_cases p.tfcMod).imp (congrArg (· - 1)) (congrArg (· - 1))

/-- Settles O38: the bound holds at reset and every step keeps it (`step_le_counterMax`); `SC_NEXT i` returns what the
counter holds; and `readCounter_iterate_counterMax` reaches the maximum. -/
theorem counterModuli : Obligations.CounterModuli := by
  refine ⟨fun p => ?_, fun i => ⟨?_, fun s hle => ⟨fun t => step_le_counterMax hle, ?_⟩, ?_⟩⟩
  · exact ⟨rfl, rfl, rfl, rfl, rfl, tfcModulus_value_cases _, rfl, rfl, rfl, rfl, counterMax_tfc_cases p, fun _ => rfl,
      counterMod_le_width p .tfc⟩
  · exact (readCounter_reset i).trans_le (Nat.zero_le _)
  · obtain ⟨r, hresponses, -, hdata⟩ := advanceCounter_returns Config.params i s
    exact ⟨_, r, exec_scNext_selOfCounter i s, hresponses, hdata.trans_le hle⟩
  · have hmax := readCounter_iterate_counterMax Config.params i (s := State.reset) (readCounter_reset i)
    obtain ⟨r, hresponses, -, hdata⟩ := advanceCounter_returns Config.params i
      ((advanceCounter Config.params i)^[counterMax Config.params i] State.reset)
    exact ⟨_, _, r, runCommands_replicate_scNext i _ _, hmax, exec_scNext_selOfCounter i _, hresponses,
      hdata.trans hmax⟩

end Sys2Proof.Proofs
end

section
/-! The four statuses and their causes (`60_exceptions.md`, R95 to R100). -/

namespace Sys2Proof.Proofs

open Sys2Proof.Machine

/-- The command executes: one OK response, and what is still presented is as it was (R8). -/
def AnswersOk (i : Instr) (s : State) : Prop :=
  ∃ v t, exec i s = .next (respond v t) ∧ t.port = s.port ∧ t.responses = s.responses

theorem exists_timeFieldOfSel {sel : Nibble} (h : timeFieldSelLegal sel = true) : ∃ f, timeFieldOfSel sel = some f := by
  rwa [← Option.ne_none_iff_exists', ne_eq, timeFieldOfSel_none_iff, Nat.not_lt, ← timeFieldSelLegal_iff]

theorem exists_payloadWordOfSel {sel : Nibble} (h : payloadSelLegal sel = true) :
    ∃ k, payloadWordOfSel sel = some k := by
  rwa [← Option.ne_none_iff_exists', ne_eq, payloadWordOfSel_none_iff, Nat.not_lt, ← payloadSelLegal_iff]

theorem exists_counterOfSel {sel : Nibble} (h : counterSelLegal sel = true) : ∃ i, counterOfSel sel = some i := by
  rwa [← Option.ne_none_iff_exists', ne_eq, counterOfSel_none_iff, Nat.not_lt, ← counterSelLegal_iff]

/-- `BT_RD` of a legal selector while `BT_VALID` = 0 raises `E_NOTREADY` (R99). -/
theorem exec_btRd_notReady {sel : Nibble} {s : State} (hsel : payloadSelLegal sel = true) (hvalid : s.bt.valid = false) :
    ∃ k, exec (.btRd sel) s = .next (raiseError (.notReady k) s) := by
  obtain ⟨k, hk⟩ := exists_payloadWordOfSel hsel
  exact ⟨k, by rw [exec_btRd_of_sel hk, readPayload, if_neg (Bool.eq_false_iff.mp hvalid)]⟩

/-- A legal command executes unless it is a `BT_ENC` with a field out of range or a `BT_RD` with `BT_VALID` = 0 (R97, R99):
no other command has a condition to fail. -/
theorem answersOk_of_no_cause {i : Instr} {s : State} (hwf : i.wellFormed = true)
    (hrange : ¬ (i = .btEnc ∧ inRange s.bt.fields = false))
    (hready : ¬ ((∃ k, i = .btRd k) ∧ s.bt.valid = false)) : AnswersOk i s := by
  cases i with
  | ckClr => exact ⟨_, _, exec_ckClr s, rfl, rfl⟩
  | ckByte b => exact ⟨_, _, exec_ckByte b s, rfl, rfl⟩
  | ckWord h => exact ⟨_, _, exec_ckWord h s, rfl, rfl⟩
  | ckRead => exact ⟨_, _, exec_ckRead s, rfl, rfl⟩
  | btSet sel v =>
    obtain ⟨f, hf⟩ := exists_timeFieldOfSel hwf
    obtain rfl := timeFieldOfSel_some hf
    exact ⟨_, _, exec_btSet_selOfField f v s, rfl, rfl⟩
  | btEnc =>
    have hin : inRange s.bt.fields = true := Bool.of_not_eq_false fun h => hrange ⟨rfl, h⟩
    exact ⟨_, _, (exec_btEnc s).trans (execBtEnc_inRange hin), rfl, rfl⟩
  | btRd sel =>
    have hvalid : s.bt.valid = true := Bool.of_not_eq_false fun h => hready ⟨⟨sel, rfl⟩, h⟩
    obtain ⟨k, hk⟩ := exists_payloadWordOfSel hwf
    exact ⟨_, s, by rw [exec_btRd_of_sel hk, readPayload, if_pos hvalid], rfl, rfl⟩
  | scNext sel =>
    obtain ⟨i, hi⟩ := exists_counterOfSel hwf
    obtain rfl := counterOfSel_some hi
    exact ⟨_, _, exec_scNext_selOfCounter i s, rfl, rfl⟩

/-- An error writes no register (R96). -/
theorem sameRegisters_raiseError (e : BlockError) (s : State) (later : List HostEvent) :
    SameRegisters s (raiseError e { s with port := later }) :=
  ⟨raiseError_ck _ _, raiseError_bt _ _, raiseError_sc _ _⟩

theorem statusCode_lt (st : Status) : (statusCode st).toNat < 4 := by cases st <;> decide

/-- Settles O14, by the cause: an illegal word raises `E_ILLEGAL`; a legal one is a `BT_ENC` out of range, a `BT_RD` that
is not ready, or neither, and then `answersOk_of_no_cause`. Every error is a `raiseError`, which writes no register. -/
theorem errorsAndTheirCauses : Obligations.ErrorsAndTheirCauses := by
  refine ⟨⟨rfl, rfl, rfl, rfl, statusCode_lt⟩, fun s cmd later hport => ?_⟩
  have htake := takeEvent_of_port_eq_cons hport
  rw [step_command hport, htake]
  cases hdecode : decode cmd with
  | error e =>
    exact ⟨_, _, rfl, raiseError_responses _ _, rfl, iff_of_true rfl ⟨e, rfl⟩, iff_of_false nofun nofun,
      iff_of_false nofun nofun, fun _ => ⟨rfl, sameRegisters_raiseError _ s later⟩⟩
  | ok i =>
    have hwf := (encode_of_decode hdecode).2
    simp only [Except.ok.injEq]
    by_cases hrange : i = .btEnc ∧ inRange s.bt.fields = false
    · obtain ⟨rfl, hout⟩ := hrange
      obtain ⟨f, hexec⟩ := execBtEnc_outOfRange (s := { s with port := later }) hout
      exact ⟨_, _, hexec, raiseError_responses _ _, rfl, iff_of_false nofun nofun, iff_of_true rfl ⟨rfl, hout⟩,
        iff_of_false nofun nofun, fun _ => ⟨rfl, sameRegisters_raiseError _ s later⟩⟩
    · by_cases hready : (∃ k, i = .btRd k) ∧ s.bt.valid = false
      · obtain ⟨⟨sel, rfl⟩, hvalid⟩ := hready
        obtain ⟨k, hexec⟩ := exec_btRd_notReady (s := { s with port := later }) hwf hvalid
        exact ⟨_, _, hexec, raiseError_responses _ _, rfl, iff_of_false nofun nofun, iff_of_false nofun hrange,
          iff_of_true rfl ⟨⟨sel, rfl⟩, hvalid⟩, fun _ => ⟨rfl, sameRegisters_raiseError _ s later⟩⟩
      · obtain ⟨v, t, hexec, htport, htresponses⟩ :=
          answersOk_of_no_cause (s := { s with port := later }) hwf hrange hready
        exact ⟨_, { status := .ok, data := v }, hexec, by rw [respond_responses, htresponses], htport,
          iff_of_false nofun nofun, iff_of_false nofun hrange, iff_of_false nofun hready, absurd rfl⟩

end Sys2Proof.Proofs
end

section
/-! What one command and a run of commands leave, as functions of the state (R39, R47, R121). -/

namespace Sys2Proof.Proofs

open Sys2Proof.Machine

/-- The state a command leaves: every command completes (`exec_eq_afterCommand`). -/
def afterCommand (s : State) (i : Instr) : State := nextOr s (exec i s)

theorem exec_eq_afterCommand (i : Instr) (s : State) : exec i s = .next (afterCommand s i) := exec_eq_next i s

theorem afterCommand_of_exec {i : Instr} {s t : State} (h : exec i s = .next t) : afterCommand s i = t := by
  rw [afterCommand, h, nextOr_next]

theorem wordState_of_decode {cmd : Word} {i : Instr} (h : decode cmd = .ok i) (s : State) :
    wordState s cmd = afterCommand s i := wordState_legal s h

theorem wordState_encode {i : Instr} (hwf : i.wellFormed = true) (s : State) :
    wordState s (encode i) = afterCommand s i := wordState_of_decode (decode_encode hwf) s

/-- A run of well-formed commands is the fold of what each command leaves (R121). -/
theorem runCommands_eq_foldl {is : List Instr} (hwf : AllWellFormed is) (s : State) :
    runCommands is s = .next (is.foldl afterCommand s) := by
  rw [runCommands, runWords_eq_foldl, List.foldl_map]
  exact congrArg _ (List.foldl_ext _ _ _ fun t i hi => wordState_encode (hwf i hi) t)

/-- Every command gives one response (R47). -/
theorem afterCommand_responses (i : Instr) (s : State) : ∃ r, (afterCommand s i).responses = s.responses ++ [r] := by
  rcases exec_cases i s with ⟨_, _, -, h⟩ | ⟨_, _, -, h⟩ | ⟨_, _, -, h⟩ | ⟨_, h⟩
  all_goals exact ⟨_, congrArg State.responses (afterCommand_of_exec h)⟩

theorem afterCommand_port (i : Instr) (s : State) : (afterCommand s i).port = s.port := by
  rcases exec_cases i s with ⟨_, _, -, h⟩ | ⟨_, _, -, h⟩ | ⟨_, _, -, h⟩ | ⟨_, h⟩
  all_goals rw [afterCommand_of_exec h]; rfl

/-- Every word, legal or not, gets one response (R47, R98). -/
theorem wordState_responses (cmd : Word) (s : State) : ∃ r, (wordState s cmd).responses = s.responses ++ [r] := by
  cases hdecode : decode cmd with
  | ok i => exact wordState_of_decode hdecode s ▸ afterCommand_responses i s
  | error e => exact ⟨_, congrArg State.responses (wordState_illegal s hdecode)⟩

theorem foldl_wordState_responses (cmds : List Word) (s : State) :
    ∃ rs, (cmds.foldl wordState s).responses = s.responses ++ rs ∧ rs.length = cmds.length := by
  induction cmds generalizing s with
  | nil => exact ⟨[], (List.append_nil _).symm, rfl⟩
  | cons cmd cmds ih =>
    obtain ⟨r, hr⟩ := wordState_responses cmd s
    obtain ⟨rs, hrs, hlength⟩ := ih (wordState s cmd)
    exact ⟨r :: rs, by rw [List.foldl_cons, hrs, hr, List.append_assoc, List.singleton_append],
      congrArg Nat.succ hlength⟩

theorem foldl_wordState_port (cmds : List Word) (s : State) : (cmds.foldl wordState s).port = s.port := by
  induction cmds generalizing s with
  | nil => rfl
  | cons cmd cmds ih => rw [List.foldl_cons, ih, wordState_port]

/-- Settles O13: a run is a fold (`runWords_eq_foldl`) in which each word appends one response, and the fold of `a ++ b` is
that of `b` from where that of `a` ends. -/
theorem everyWordIsAnsweredOnce : Obligations.EveryWordIsAnsweredOnce := by
  constructor
  · intro cmds s
    obtain ⟨rs, hrs, hlength⟩ := foldl_wordState_responses cmds s
    exact ⟨_, rs, runWords_eq_foldl cmds s, hrs, hlength, foldl_wordState_port cmds s⟩
  · intro a b s
    obtain ⟨ra, hra, hlengtha⟩ := foldl_wordState_responses a s
    obtain ⟨rb, hrb, hlengthb⟩ := foldl_wordState_responses b (a.foldl wordState s)
    refine ⟨_, _, ra, rb, runWords_eq_foldl a s, hra, hlengtha, runWords_eq_foldl b _, hrb, hlengthb, ?_, ?_⟩
    · rw [runWords_eq_foldl, List.foldl_append]
    · rw [hrb, hra, List.append_assoc]

/-- Settles O10 by the first case of `step_cases`: the other three have an event on the port. -/
theorem nothingHappensBetweenCommands : Obligations.NothingHappensBetweenCommands := by
  intro s hport
  rcases step_cases s with ⟨-, h⟩ | ⟨_, _, h, -⟩ | ⟨_, _, _, h, -⟩ | ⟨_, _, _, h, -⟩
  · exact h
  all_goals exact nomatch hport.symm.trans h

theorem step_reset {s : State} {presented : List Word} {later : List HostEvent} (h : s.port = .reset presented :: later) :
    step s = .next (resetBlock { s with port := later }) := by
  rw [← takeEvent_of_port_eq_cons h]
  rcases step_cases s with ⟨hport, -⟩ | ⟨_, _, -, hstep⟩ | ⟨_, _, _, hport, -⟩ | ⟨_, _, _, hport, -⟩
  · exact nomatch h.symm.trans hport
  · exact hstep
  all_goals exact nomatch h.symm.trans hport

/-- Settles O11: the step is `resetBlock` with the event taken (`step_reset`). -/
theorem resetClearsEveryRegister : Obligations.ResetClearsEveryRegister :=
  fun _ _ _ hport => ⟨_, step_reset hport, sameRegisters_reset_resetBlock _, rfl, rfl⟩

/-- Settles O1: each word is an instance of its row of the opcode map, evaluated. -/
theorem tableWordsDecode : Obligations.TableWordsDecode :=
  ⟨⟨rfl, rfl, rfl, rfl, rfl, rfl, rfl, rfl⟩, ⟨rfl, rfl, rfl, rfl, rfl⟩⟩

end Sys2Proof.Proofs
end

section
/-! Selectors out of range (R44 point 3, R100): the terms that `exec` refuses before any other test. -/

namespace Sys2Proof.Proofs

open Sys2Proof.Machine

theorem exec_btSet_of_none {sel : Nibble} (h : timeFieldOfSel sel = none) (v : Half) (s : State) :
    exec (.btSet sel v) s = .next (raiseError .illegal s) := by
  rw [exec, execBtSet, h]

theorem exec_btRd_of_none {sel : Nibble} (h : payloadWordOfSel sel = none) (s : State) :
    exec (.btRd sel) s = .next (raiseError .illegal s) := by
  rw [exec, execBtRd, h]

theorem exec_scNext_of_none {sel : Nibble} (h : counterOfSel sel = none) (s : State) :
    exec (.scNext sel) s = .next (raiseError .illegal s) := by
  rw [exec, execScNext, h]

/-- Settles O29: a selector above its range names nothing, and `exec` raises `E_ILLEGAL`. -/
theorem selectorOutOfRangeIsIllegal : Obligations.SelectorOutOfRangeIsIllegal := fun sel v s =>
  ⟨fun h => exec_btSet_of_none ((timeFieldOfSel_none_iff sel).mpr h) v s,
    fun h => exec_btRd_of_none ((payloadWordOfSel_none_iff sel).mpr h) s,
    fun h => exec_scNext_of_none ((counterOfSel_none_iff sel).mpr h) s⟩

end Sys2Proof.Proofs
end

section
/-! The units share no state (R18): what a command leaves in each unit, and what it reads. -/

namespace Sys2Proof.Proofs

open Sys2Proof.Machine

/-- The two states hold the same in the registers of this unit (R10, R18). -/
def SameUnit : BlockUnit → State → State → Prop
  | .ck, s, t => s.ck = t.ck
  | .bt, s, t => s.bt = t.bt
  | .sc, s, t => s.sc = t.sc

theorem SameUnit.refl (u : BlockUnit) (s : State) : SameUnit u s s := by cases u <;> rfl

theorem SameUnit.trans {u : BlockUnit} {s t v : State} (h : SameUnit u s t) (h' : SameUnit u t v) : SameUnit u s v := by
  cases u <;> exact Eq.trans h h'

theorem sameRegisters_iff_forall_sameUnit (s t : State) : SameRegisters s t ↔ ∀ u, SameUnit u t s := by
  constructor
  · rintro ⟨hck, hbt, hsc⟩ u
    cases u with
    | ck => exact hck
    | bt => exact hbt
    | sc => exact hsc
  · exact fun h => ⟨h .ck, h .bt, h .sc⟩

/-- An error writes no register (R96). -/
theorem sameUnit_raiseError (u : BlockUnit) (e : BlockError) (s : State) : SameUnit u (raiseError e s) s := by
  cases u <;> rfl

/-- The frame of a command: the other two units (R18). -/
theorem afterCommand_frame {u : BlockUnit} {i : Instr} (hu : unitOf i ≠ u) (s : State) :
    SameUnit u (afterCommand s i) s := by
  rcases exec_cases i s with ⟨_, _, hunit, h⟩ | ⟨_, _, hunit, h⟩ | ⟨_, _, hunit, h⟩ | ⟨e, h⟩
  all_goals rw [afterCommand_of_exec h]
  · cases u with
    | ck => exact absurd hunit hu
    | _ => rfl
  · cases u with
    | bt => exact absurd hunit hu
    | _ => rfl
  · cases u with
    | sc => exact absurd hunit hu
    | _ => rfl
  · exact sameUnit_raiseError u e s

/-- The two completions answer alike and leave the same in unit `u`. -/
def AgreeOn (u : BlockUnit) (s s' t t' : State) : Prop :=
  SameUnit u t t' ∧ ∃ r, t.responses = s.responses ++ [r] ∧ t'.responses = s'.responses ++ [r]

theorem agreeOn_raiseError {u : BlockUnit} {s s' : State} (h : SameUnit u s s') (e : BlockError) :
    AgreeOn u s s' (raiseError e s) (raiseError e s') := by
  refine ⟨?_, _, rfl, rfl⟩
  cases u <;> exact h

/-- A command reads its own unit only (R18, R27). -/
theorem afterCommand_congr {i : Instr} {s s' : State} (h : SameUnit (unitOf i) s s') :
    AgreeOn (unitOf i) s s' (afterCommand s i) (afterCommand s' i) := by
  cases i with
  | ckClr => exact ⟨rfl, _, rfl, rfl⟩
  | ckByte b => exact ⟨congrArg (pushByte b) h, _, rfl, rfl⟩
  | ckWord w => exact ⟨congrArg (fun c => pushByte (laterByte w) (pushByte (earlierByte w) c)) h, _, rfl, rfl⟩
  | ckRead =>
    have hck : s.ck = s'.ck := h
    refine ⟨h, _, rfl, ?_⟩
    rw [hck]
    rfl
  | btSet sel v =>
    cases hsel : timeFieldOfSel sel with
    | none =>
      rw [afterCommand_of_exec (exec_btSet_of_none hsel v s), afterCommand_of_exec (exec_btSet_of_none hsel v s')]
      exact agreeOn_raiseError h _
    | some f =>
      obtain rfl := timeFieldOfSel_some hsel
      rw [afterCommand_of_exec (exec_btSet_selOfField f v s), afterCommand_of_exec (exec_btSet_selOfField f v s')]
      exact ⟨congrArg (storeField f v) h, _, rfl, rfl⟩
  | btEnc =>
    have hbt : s.bt = s'.bt := h
    simp only [afterCommand, exec_btEnc, execBtEnc, hbt]
    cases firstOutOfRange s'.bt.fields with
    | none => exact ⟨rfl, _, rfl, rfl⟩
    | some f => exact agreeOn_raiseError h _
  | btRd sel =>
    have hbt : s.bt = s'.bt := h
    cases hsel : payloadWordOfSel sel with
    | none =>
      rw [afterCommand_of_exec (exec_btRd_of_none hsel s), afterCommand_of_exec (exec_btRd_of_none hsel s')]
      exact agreeOn_raiseError h _
    | some k =>
      rw [afterCommand_of_exec (exec_btRd_of_sel hsel s), afterCommand_of_exec (exec_btRd_of_sel hsel s'),
        readPayload_eq, readPayload_eq, hbt]
      exact ⟨rfl, _, rfl, rfl⟩
  | scNext sel =>
    have hsc : s.sc = s'.sc := h
    cases hsel : counterOfSel sel with
    | none =>
      rw [afterCommand_of_exec (exec_scNext_of_none hsel s), afterCommand_of_exec (exec_scNext_of_none hsel s')]
      exact agreeOn_raiseError h _
    | some k =>
      obtain rfl := counterOfSel_some hsel
      rw [afterCommand_of_exec (exec_scNext_selOfCounter k s), afterCommand_of_exec (exec_scNext_selOfCounter k s'),
        advanceCounter, advanceCounter, hsc]
      exact ⟨rfl, _, rfl, rfl⟩

/-- Settles O46 by `afterCommand_congr` at the command's unit. -/
theorem responseDependsOnOwnUnit : Obligations.ResponseDependsOnOwnUnit := by
  intro i s s' hck hbt hsc
  have hsame : SameUnit (unitOf i) s s' := by
    cases hunit : unitOf i with
    | ck => exact hck hunit
    | bt => exact hbt hunit
    | sc => exact hsc hunit
  obtain ⟨hunit, r, hr, hr'⟩ := afterCommand_congr hsame
  refine ⟨_, _, r, exec_eq_afterCommand i s, exec_eq_afterCommand i s', hr, hr', fun h => ?_, fun h => ?_, fun h => ?_⟩
  all_goals
    rw [h] at hunit
    exact hunit

/-! #### Runs of words, unit by unit -/

/-- A word that is no command of the unit leaves the unit's registers (R18, R98). -/
theorem wordState_frame {u : BlockUnit} {cmd : Word} (hu : ofUnit u cmd = false) (s : State) :
    SameUnit u (wordState s cmd) s := by
  cases hdecode : decode cmd with
  | ok i =>
    rw [wordState_of_decode hdecode]
    exact afterCommand_frame (by simpa [ofUnit, hdecode] using hu) s
  | error e =>
    rw [wordState_illegal s hdecode]
    exact sameUnit_raiseError u _ s

theorem wordState_congr {u : BlockUnit} {cmd : Word} (hu : ofUnit u cmd = true) {s s' : State} (h : SameUnit u s s') :
    SameUnit u (wordState s cmd) (wordState s' cmd) := by
  cases hdecode : decode cmd with
  | ok i =>
    obtain rfl : unitOf i = u := by simpa [ofUnit, hdecode] using hu
    rw [wordState_of_decode hdecode, wordState_of_decode hdecode]
    exact (afterCommand_congr h).1
  | error e => simp [ofUnit, hdecode] at hu

/-- Leaving out the words of the other units, and the illegal ones, does not matter to a unit (R18, R122). -/
theorem foldl_filter_ofUnit (u : BlockUnit) (cmds : List Word) {s s' : State} (h : SameUnit u s s') :
    SameUnit u (cmds.foldl wordState s) ((cmds.filter (ofUnit u)).foldl wordState s') := by
  induction cmds generalizing s s' with
  | nil => exact h
  | cons cmd cmds ih =>
    cases hu : ofUnit u cmd with
    | true =>
      rw [List.filter_cons_of_pos hu]
      exact ih (wordState_congr hu h)
    | false =>
      rw [List.filter_cons_of_neg (Bool.eq_false_iff.mp hu)]
      exact ih ((wordState_frame hu s).trans h)

/-- Settles O45: `foldl_filter_ofUnit` at each of the three units. -/
theorem unitsDoNotInterfere : Obligations.UnitsDoNotInterfere := by
  intro cmds s
  have hunit u := foldl_filter_ofUnit u cmds (SameUnit.refl u s)
  exact ⟨_, _, _, _, runWords_eq_foldl _ _, runWords_eq_foldl _ _, hunit .ck, runWords_eq_foldl _ _, hunit .bt,
    runWords_eq_foldl _ _, hunit .sc⟩

end Sys2Proof.Proofs
end

section
/-! The words of a byte list and its checksum when bytes are appended (R55, R57, R65). -/

namespace Sys2Proof.Proofs

open Sys2Proof.Machine

/-- A byte at an even position is in no complete word (R57, decision D5). -/
theorem completeWords_append_one {b : List Byte} (x : Byte) (heven : b.length % 2 = 0) :
    completeWords (b ++ [x]) = completeWords b := by
  induction b using completeWords.induct with
  | case1 u v rest ih =>
    have hrest : rest.length % 2 = 0 := by simpa [Nat.add_assoc] using heven
    rw [List.cons_append, List.cons_append, completeWords_cons, completeWords_cons, ih hrest]
  | case2 b hshort =>
    match b, hshort with
    | [], _ => rfl
    | [_], _ => exact nomatch heven
    | u :: v :: rest, hshort => exact absurd rfl (hshort u v rest)

theorem cksum_append_one {b : List Byte} (x : Byte) (heven : b.length % 2 = 0) : cksum (b ++ [x]) = cksum b := by
  rw [cksum, completeWords_append_one x heven, cksum]

/-- The word just completed is not summed yet: the checksum is the sum of the words before it (R55, R65). -/
theorem cksum_append_pair {b : List Byte} (x y : Byte) (heven : b.length % 2 = 0) :
    cksum (b ++ [x, y]) = (completeWords b).sum := by
  rw [cksum_eq_sum, completeWords_append_pair b x y heven, List.dropLast_concat]

/-- Settles O21 by `cksum_append_one`. -/
theorem danglingByteChangesNothing : Obligations.DanglingByteChangesNothing := fun _ x => cksum_append_one x

/-- Settles O22: by `cksum_append_pair` the last word is not in the sum, and the word before the last is the one added. -/
theorem lastWordIsNeverSummed : Obligations.LastWordIsNeverSummed := by
  intro b x y u v heven
  constructor
  · rw [cksum_append_pair x y heven, cksum_append_pair u v heven]
  · have hpair : (b ++ [x, y]).length % 2 = 0 := by simpa using heven
    have hsplit : b ++ [x, y, u, v] = b ++ [x, y] ++ [u, v] := by simp
    rw [hsplit, cksum_append_pair u v hpair, completeWords_append_pair b x y heven, List.sum_append,
      List.sum_singleton, cksum_append_pair x y heven, BitVec.toNat_add, littleEndianWord_toNat]

end Sys2Proof.Proofs
end

section
/-! The CK registers of a stream of bytes (R63), and what a command does to them. -/

namespace Sys2Proof.Proofs

open Sys2Proof.Machine

/-! #### Pushing bytes -/

/-- The CK registers after these bytes are pushed, in order (R60). -/
def pushBytes (c : CkRegs) (b : List Byte) : CkRegs := b.foldl (fun c x => pushByte x c) c

theorem pushBytes_append (c : CkRegs) (a b : List Byte) : pushBytes c (a ++ b) = pushBytes (pushBytes c a) b :=
  List.foldl_append

theorem ckHolds_cleared : CkHolds CkRegs.cleared [] where
  acc := rfl
  hv := rfl
  hold := rfl
  lv := rfl
  low := rfl

theorem sum_dropLast_add_getLast (ws : List Half) : ws.dropLast.sum + ws.getLast?.getD 0 = ws.sum := by
  rcases List.eq_nil_or_concat' ws with rfl | ⟨ws, w, rfl⟩
  · rfl
  · simp

/-- The accumulator and the held word together are the sum of all complete words (R63). -/
theorem acc_add_hold_of_ckHolds {c : CkRegs} {b : List Byte} (h : CkHolds c b) :
    (if c.hv then c.acc + c.hold else c.acc) = (completeWords b).sum := by
  have hsum : c.acc + c.hold = (completeWords b).sum := by
    rw [h.acc, h.hold, cksum_eq_sum, sum_dropLast_add_getLast]
  cases hhv : c.hv with
  | true => exact hsum
  | false =>
    have hnone : completeWords b = [] := by
      apply List.eq_nil_of_length_eq_zero
      rw [completeWords_length]
      have hlength : ¬ 1 ≤ b.length / 2 := of_decide_eq_false (h.hv.symm.trans hhv)
      omega
    rw [if_neg Bool.false_ne_true, h.acc, cksum_eq_sum, hnone]
    rfl

/-- A byte at an even position waits in `CK_LOW` (R60, R63). -/
theorem ckHolds_pushByte_even {c : CkRegs} {b : List Byte} (h : CkHolds c b) (x : Byte) (heven : b.length % 2 = 0) :
    CkHolds (pushByte x c) (b ++ [x]) := by
  have hlv : c.lv = false := by rw [h.lv]; exact decide_eq_false (by omega)
  have hlength : (b ++ [x]).length % 2 = 1 := by rw [List.length_append, List.length_singleton]; omega
  have hwords : (b ++ [x]).length / 2 = b.length / 2 := by rw [List.length_append, List.length_singleton]; omega
  rw [pushByte_first x c hlv]
  exact
    { acc := h.acc.trans (cksum_append_one x heven).symm
      hv := by rw [hwords]; exact h.hv
      hold := by rw [completeWords_append_one x heven]; exact h.hold
      lv := (decide_eq_true hlength).symm
      low := by rw [if_pos hlength, List.getLast?_concat]; rfl }

/-- A byte at an odd position completes a word, and the word it displaces is added to `CK_ACC` (R60, R63). -/
theorem ckHolds_pushByte_odd {c : CkRegs} {b : List Byte} {y : Byte} (h : CkHolds c (b ++ [y])) (x : Byte)
    (heven : b.length % 2 = 0) : CkHolds (pushByte x c) (b ++ [y, x]) := by
  have hodd : (b ++ [y]).length % 2 = 1 := by rw [List.length_append, List.length_singleton]; omega
  have hlv : c.lv = true := by rw [h.lv]; exact decide_eq_true hodd
  have hlow : c.low = y := by rw [h.low, if_pos hodd, List.getLast?_concat]; rfl
  have hlength : (b ++ [y, x]).length = b.length + 2 := List.length_append
  have heven' : ¬ (b ++ [y, x]).length % 2 = 1 := by omega
  rw [pushByte_second x c hlv]
  exact
    { acc := by rw [acc_add_hold_of_ckHolds h, completeWords_append_one y heven, cksum_append_pair y x heven]
      hv := (decide_eq_true (by omega)).symm
      hold := by rw [completeWords_append_pair b y x heven, List.getLast?_concat, hlow]; rfl
      lv := (decide_eq_false heven').symm
      low := (if_neg heven').symm }

/-- One more byte (R63), by the parity of its position. -/
theorem ckHolds_pushByte {c : CkRegs} {b : List Byte} (h : CkHolds c b) (x : Byte) :
    CkHolds (pushByte x c) (b ++ [x]) := by
  rcases Nat.mod_two_eq_zero_or_one b.length with heven | hodd
  · exact ckHolds_pushByte_even h x heven
  · rcases List.eq_nil_or_concat' b with rfl | ⟨a, y, rfl⟩
    · exact absurd hodd (by decide)
    · have ha : a.length % 2 = 0 := by rw [List.length_append, List.length_singleton] at hodd; omega
      rw [List.append_assoc]
      exact ckHolds_pushByte_odd h x ha

theorem ckHolds_pushBytes {c : CkRegs} {b : List Byte} (h : CkHolds c b) (new : List Byte) :
    CkHolds (pushBytes c new) (b ++ new) := by
  induction new generalizing c b with
  | nil => rwa [List.append_nil]
  | cons x new ih =>
    rw [List.append_cons]
    exact ih (ckHolds_pushByte h x)

/-! #### What a command and a word do to the CK registers -/

theorem pushedBytes_of_unitOf_ne_ck {i : Instr} (h : unitOf i ≠ .ck) : pushedBytes i = [] := by
  cases i with
  | ckByte b => exact absurd rfl h
  | ckWord w => exact absurd rfl h
  | _ => rfl

/-- A command other than `CK_CLR` pushes its bytes, and that is all it does to CK (R60, R61, R62). -/
theorem afterCommand_ck {i : Instr} (hclr : i ≠ .ckClr) (s : State) :
    (afterCommand s i).ck = pushBytes s.ck (pushedBytes i) := by
  by_cases hunit : unitOf i = .ck
  · cases i with
    | ckClr => exact absurd rfl hclr
    | ckByte b => rfl
    | ckWord h => rfl
    | ckRead => rfl
    | _ => exact nomatch hunit
  · rw [pushedBytes_of_unitOf_ne_ck hunit]
    exact afterCommand_frame hunit s

theorem pushedByWord_of_decode {cmd : Word} {i : Instr} (h : decode cmd = .ok i) : pushedByWord cmd = pushedBytes i := by
  rw [pushedByWord, h]

theorem pushedByWord_of_error {cmd : Word} {e : DecodeError} (h : decode cmd = .error e) : pushedByWord cmd = [] := by
  rw [pushedByWord, h]

theorem wordState_ck {cmd : Word} (hclr : decode cmd ≠ .ok .ckClr) (s : State) :
    (wordState s cmd).ck = pushBytes s.ck (pushedByWord cmd) := by
  cases hdecode : decode cmd with
  | ok i =>
    have hi : i ≠ .ckClr := fun h => hclr (h ▸ hdecode)
    rw [wordState_of_decode hdecode, pushedByWord_of_decode hdecode, afterCommand_ck hi]
  | error e =>
    rw [wordState_illegal s hdecode, pushedByWord_of_error hdecode]
    rfl

/-- Words without a `CK_CLR` among them push their bytes, in order (R63). -/
theorem foldl_wordState_ck {cmds : List Word} (hclr : ∀ cmd ∈ cmds, decode cmd ≠ .ok .ckClr) (s : State) :
    (cmds.foldl wordState s).ck = pushBytes s.ck (cmds.flatMap pushedByWord) := by
  induction cmds generalizing s with
  | nil => rfl
  | cons cmd cmds ih =>
    obtain ⟨hhead, htail⟩ := List.forall_mem_cons.mp hclr
    rw [List.foldl_cons, ih htail, wordState_ck hhead, List.flatMap_cons, pushBytes_append]

/-- Settles O25: the words push their bytes (`foldl_wordState_ck`), and pushed bytes continue the list
(`ckHolds_pushBytes`). -/
theorem omittedClearConcatenates : Obligations.OmittedClearConcatenates := by
  intro old cmds s hold hclr
  refine ⟨_, runWords_eq_foldl cmds s, ?_⟩
  rw [foldl_wordState_ck hclr]
  exact ckHolds_pushBytes hold _

theorem wordState_ckClr (s : State) :
    wordState s (encode .ckClr) = respond 0 { s with ck := CkRegs.cleared } :=
  (wordState_encode rfl s).trans (afterCommand_of_exec (exec_ckClr s))

theorem wordState_ckRead (s : State) : wordState s (encode .ckRead) = respond (zext32 s.ck.acc) s :=
  (wordState_encode rfl s).trans (afterCommand_of_exec (exec_ckRead s))

/-- After `CK_CLR` the registers are those of the bytes pushed since (R63). -/
theorem ckHolds_foldl_ckClr {cmds : List Word} (hclr : ∀ cmd ∈ cmds, decode cmd ≠ .ok .ckClr) (s : State) :
    CkHolds ((encode .ckClr :: cmds).foldl wordState s).ck (cmds.flatMap pushedByWord) := by
  rw [List.foldl_cons, wordState_ckClr, foldl_wordState_ck hclr]
  exact ckHolds_pushBytes ckHolds_cleared _

/-- Settles O24: `CK_CLR` leaves the registers of no bytes, and the words push theirs (`ckHolds_foldl_ckClr`); `CK_READ`
returns the accumulator, which is their `CKSUM`. -/
theorem streamComputesCksum : Obligations.StreamComputesCksum := by
  intro cmds s hclr
  have hholds := ckHolds_foldl_ckClr hclr s
  refine ⟨_, _, runWords_eq_foldl _ s, hholds, exec_ckRead _, ?_⟩
  rw [respond_responses, hholds.acc]
  rfl

/-! #### The pseudo-commands `CK_SUM` and `CK_SUMW` (R49) -/

/-- A command of CK that goes on with the stream: any but the clear. -/
def ContinuesStream (i : Instr) : Prop := unitOf i = .ck ∧ i ≠ .ckClr

theorem wellFormed_of_unitOf_ck {i : Instr} (h : unitOf i = .ck) : i.wellFormed = true := by
  cases i with
  | btSet sel v => exact nomatch h
  | btRd sel => exact nomatch h
  | scNext sel => exact nomatch h
  | _ => rfl

theorem ofUnit_encode {i : Instr} (hwf : i.wellFormed = true) (u : BlockUnit) :
    ofUnit u (encode i) = decide (unitOf i = u) := by
  rw [ofUnit, decode_encode hwf]

/-- Words of which none is of the unit leave its registers (R18). -/
theorem foldl_wordState_frame {u : BlockUnit} {cmds : List Word} (hu : ∀ cmd ∈ cmds, ofUnit u cmd = false) (s : State) :
    SameUnit u (cmds.foldl wordState s) s := by
  have h := foldl_filter_ofUnit u cmds (SameUnit.refl u s)
  rwa [List.filter_eq_nil_iff.mpr fun cmd hcmd => Bool.eq_false_iff.mp (hu cmd hcmd)] at h

theorem foldl_ck_commands_frame {is : List Instr} (hck : ∀ i ∈ is, unitOf i = .ck) {u : BlockUnit} (hu : u ≠ .ck)
    (s : State) : SameUnit u ((is.map encode).foldl wordState s) s := by
  refine foldl_wordState_frame (List.forall_mem_map.mpr fun i hi => ?_) s
  rw [ofUnit_encode (wellFormed_of_unitOf_ck (hck i hi)), hck i hi]
  exact decide_eq_false hu.symm

theorem flatMap_pushedByWord_map_encode {is : List Instr} (hck : ∀ i ∈ is, unitOf i = .ck) :
    (is.map encode).flatMap pushedByWord = is.flatMap pushedBytes := by
  rw [List.flatMap_map]
  exact List.flatMap_congr fun i hi => pushedByWord_of_decode (decode_encode (wellFormed_of_unitOf_ck (hck i hi)))

/-- A clear, any pushes, a read (R49): the last response is the checksum of the bytes pushed, and BT and SC are as before. -/
theorem runCommands_clear_push_read {is : List Instr} (hstream : ∀ i ∈ is, ContinuesStream i) (s : State) :
    ∃ t, runCommands ([.ckClr] ++ is ++ [.ckRead]) s = .next t ∧ t.bt = s.bt ∧ t.sc = s.sc ∧
      t.responses.getLast? = some { status := .ok, data := (cksum (is.flatMap pushedBytes)).setWidth 32 } := by
  have hck : ∀ i ∈ is, unitOf i = .ck := fun i hi => (hstream i hi).1
  have hall : ∀ i ∈ [.ckClr] ++ is ++ [.ckRead], unitOf i = .ck := by
    simpa [or_imp, forall_and, unitOf] using hck
  have hclr : ∀ cmd ∈ is.map encode, decode cmd ≠ .ok .ckClr := List.forall_mem_map.mpr fun i hi hdecode => by
    rw [decode_encode (wellFormed_of_unitOf_ck (hck i hi))] at hdecode
    exact (hstream i hi).2 (Except.ok.inj hdecode)
  have hholds := ckHolds_foldl_ckClr hclr s
  rw [flatMap_pushedByWord_map_encode hck] at hholds
  refine ⟨_, runWords_eq_foldl _ s, foldl_ck_commands_frame hall (u := .bt) nofun s,
    foldl_ck_commands_frame hall (u := .sc) nofun s, ?_⟩
  have hwords : ([Instr.ckClr] ++ is ++ [Instr.ckRead]).map encode = encode .ckClr :: is.map encode ++ [encode .ckRead] := by simp
  rw [hwords, List.foldl_append, List.foldl_cons, List.foldl_nil, wordState_ckRead, respond_responses,
    List.getLast?_concat, hholds.acc]
  rfl

theorem earlierByte_littleEndianWord (x y : Byte) : earlierByte (littleEndianWord x y) = x :=
  BitVec.extractLsb'_append_eq_right

theorem laterByte_littleEndianWord (x y : Byte) : laterByte (littleEndianWord x y) = y :=
  BitVec.extractLsb'_append_eq_left

theorem flatMap_pushedBytes_map_ckByte (b : List Byte) : (b.map Instr.ckByte).flatMap pushedBytes = b := by
  rw [List.flatMap_map]
  exact List.flatMap_singleton' b

theorem flatMap_pushedBytes_pushesByWord (b : List Byte) : (pushesByWord b).flatMap pushedBytes = b := by
  induction b using pushesByWord.induct with
  | case1 x y rest ih =>
    rw [pushesByWord, List.flatMap_cons, ih, pushedBytes, earlierByte_littleEndianWord, laterByte_littleEndianWord]
    rfl
  | case2 x => rfl
  | case3 => rfl

theorem continuesStream_of_mem_pushesByWord (b : List Byte) : ∀ i ∈ pushesByWord b, ContinuesStream i := by
  induction b using pushesByWord.induct with
  | case1 x y rest ih => exact List.forall_mem_cons.mpr ⟨⟨rfl, nofun⟩, ih⟩
  | case2 x => exact List.forall_mem_singleton.mpr ⟨rfl, nofun⟩
  | case3 => exact nofun

/-- Settles O26: both expansions are a clear, pushes of the buffer and a read (`runCommands_clear_push_read`). -/
theorem ckSumPseudoCommands : Obligations.CkSumPseudoCommands := by
  intro b s
  constructor
  · have h := runCommands_clear_push_read (is := b.map .ckByte) (List.forall_mem_map.mpr fun _ _ => ⟨rfl, nofun⟩) s
    rwa [flatMap_pushedBytes_map_ckByte] at h
  · have h := runCommands_clear_push_read (continuesStream_of_mem_pushesByWord b) s
    rwa [flatMap_pushedBytes_pushesByWord] at h

end Sys2Proof.Proofs
end

section
/-! What a command and a step do to the BT registers (R75, R76), and the digits of an encoding (R70 to R73). -/

namespace Sys2Proof.Proofs

open Sys2Proof.Machine

/-! #### The three things that can happen to BT -/

/-- The BT registers after a `BT_ENC` that succeeds (R76). -/
def storeEncoding (b : BtRegs) : BtRegs := { b with out := encodeTime b.fields, valid := validAfterEncode }

theorem exec_btEnc_inRange {s : State} (h : inRange s.bt.fields = true) :
    exec .btEnc s = .next (respond 0 { s with bt := storeEncoding s.bt }) := execBtEnc_inRange h

/-- A command leaves BT as it was, or it is a `BT_SET` of a legal selector, or a `BT_ENC` in range (R18). -/
theorem afterCommand_bt_cases (i : Instr) (s : State) :
    (afterCommand s i).bt = s.bt ∨
    (∃ f v, i = .btSet (selOfField f) v ∧ (afterCommand s i).bt = storeField f v s.bt) ∨
    (i = .btEnc ∧ inRange s.bt.fields = true ∧ (afterCommand s i).bt = storeEncoding s.bt) := by
  by_cases hunit : unitOf i = .bt
  · cases i with
    | btSet sel v =>
      cases hsel : timeFieldOfSel sel with
      | none => exact .inl (by rw [afterCommand_of_exec (exec_btSet_of_none hsel v s)]; rfl)
      | some f =>
        obtain rfl := timeFieldOfSel_some hsel
        exact .inr (.inl ⟨f, v, rfl, by rw [afterCommand_of_exec (exec_btSet_selOfField f v s)]; rfl⟩)
    | btEnc =>
      cases hrange : inRange s.bt.fields with
      | true => exact .inr (.inr ⟨rfl, rfl, by rw [afterCommand_of_exec (exec_btEnc_inRange hrange)]; rfl⟩)
      | false =>
        obtain ⟨f, hexec⟩ := execBtEnc_outOfRange hrange
        exact .inl (by rw [afterCommand_of_exec ((exec_btEnc s).trans hexec)]; rfl)
    | btRd sel =>
      refine .inl ?_
      cases hsel : payloadWordOfSel sel with
      | none => rw [afterCommand_of_exec (exec_btRd_of_none hsel s)]; rfl
      | some k => rw [afterCommand_of_exec (exec_btRd_of_sel hsel s), readPayload_eq]
    | _ => exact nomatch hunit
  · exact .inl (afterCommand_frame hunit s)

theorem btRd_keeps_bt (sel : Nibble) (s : State) : (afterCommand s (.btRd sel)).bt = s.bt := by
  rcases afterCommand_bt_cases (.btRd sel) s with h | ⟨_, _, h, -⟩ | ⟨h, -⟩
  · exact h
  all_goals exact nomatch h

theorem btEnc_keeps_fields (s : State) : (afterCommand s .btEnc).bt.fields = s.bt.fields := by
  rcases afterCommand_bt_cases .btEnc s with h | ⟨_, _, h, -⟩ | ⟨-, -, h⟩
  · rw [h]
  · exact nomatch h
  · rw [h]; rfl

/-- `BT_SET` writes no field but the selected one (R75). -/
theorem btSet_keeps_other_fields {sel : Nibble} {f : TimeField} (hf : selOfField f ≠ sel) (v : Half) (s : State) :
    readField (afterCommand s (.btSet sel v)).bt.fields f = readField s.bt.fields f := by
  rcases afterCommand_bt_cases (.btSet sel v) s with h | ⟨g, w, hi, h⟩ | ⟨hi, -⟩
  · rw [h]
  · obtain ⟨rfl, rfl⟩ := Instr.btSet.inj hi
    have hne : f ≠ g := fun hfg => hf (congrArg selOfField hfg)
    rw [h]
    exact readField_writeField_other s.bt.fields v hne
  · exact nomatch hi

/-- A step leaves BT as it was, resets it, loads a field, or is a presented `BT_ENC` in range (R6, R18). -/
theorem step_bt_cases {s t : State} (h : step s = .next t) :
    t.bt = s.bt ∨ t.bt = BtRegs.reset ∨ (∃ f v, t.bt = storeField f v s.bt) ∨
    ((∃ later, s.port = .command (encode .btEnc) :: later) ∧ inRange s.bt.fields = true ∧
      t.bt = storeEncoding s.bt) := by
  rcases step_cases s with ⟨-, hstep⟩ | ⟨_, _, -, hstep⟩ | ⟨cmd, later, i, hport, hdecode, hstep⟩ | ⟨_, _, _, -, -, hstep⟩
  · exact .inl (Host.Outcome.next.inj (h.symm.trans hstep) ▸ rfl)
  · exact .inr (.inl (Host.Outcome.next.inj (h.symm.trans hstep) ▸ rfl))
  · obtain rfl := afterCommand_of_exec (hstep.symm.trans h)
    rcases afterCommand_bt_cases i (takeEvent s) with hbt | ⟨f, v, -, hbt⟩ | ⟨rfl, hrange, hbt⟩
    · exact .inl hbt
    · exact .inr (.inr (.inl ⟨f, v, hbt⟩))
    · exact .inr (.inr (.inr ⟨⟨later, (encode_of_decode hdecode).1 ▸ hport⟩, hrange, hbt⟩))
  · exact .inl (Host.Outcome.next.inj (h.symm.trans hstep) ▸ rfl)

/-! #### No encoding until a `BT_ENC` succeeds (R99, R117) -/

/-- A word leaves `BT_VALID` = 0 unless it is a `BT_ENC` in range (R75, R76). -/
theorem wordState_not_valid {cmd : Word} {s : State} (hvalid : s.bt.valid = false)
    (henc : decode cmd = .ok .btEnc → inRange s.bt.fields = false) : (wordState s cmd).bt.valid = false := by
  cases hdecode : decode cmd with
  | error e => rwa [wordState_illegal s hdecode]
  | ok i =>
    rw [wordState_of_decode hdecode]
    rcases afterCommand_bt_cases i s with h | ⟨_, _, -, h⟩ | ⟨rfl, hrange, -⟩
    · rwa [h]
    · rw [h]; rfl
    · exact nomatch hrange.symm.trans (henc hdecode)

/-- In the run of these words from `s` every `BT_ENC` meets a field out of range when its turn comes. -/
def NoBtEncSucceeds (cmds : List Word) (s : State) : Prop :=
  ∀ (before : List Word) (cmd : Word) (after : List Word), cmds = before ++ cmd :: after → decode cmd = .ok .btEnc →
    inRange (before.foldl wordState s).bt.fields = false

theorem foldl_wordState_not_valid {cmds : List Word} {s : State} (hvalid : s.bt.valid = false)
    (henc : NoBtEncSucceeds cmds s) : (cmds.foldl wordState s).bt.valid = false := by
  induction cmds generalizing s with
  | nil => exact hvalid
  | cons cmd cmds ih =>
    have hhead : decode cmd = .ok .btEnc → inRange s.bt.fields = false := henc [] cmd cmds rfl
    have htail : NoBtEncSucceeds cmds (wordState s cmd) := fun before c after hsplit =>
      henc (cmd :: before) c after (congrArg (cmd :: ·) hsplit)
    exact ih (wordState_not_valid hvalid hhead) htail

/-- Settles O35: a step raises `BT_VALID` only in the last case of `step_bt_cases`, a run without such a step leaves it 0
(`foldl_wordState_not_valid`), and `BT_RD` is then refused. -/
theorem noEncodingUntilBtEncSucceeds : Obligations.NoEncodingUntilBtEncSucceeds := by
  constructor
  · intro s t hbefore hstep hafter
    rcases step_bt_cases hstep with h | h | ⟨_, _, h⟩ | ⟨hport, hrange, -⟩
    · rw [h, hbefore] at hafter
      exact nomatch hafter
    · rw [h] at hafter
      exact nomatch hafter
    · rw [h] at hafter
      exact nomatch hafter
    · exact ⟨hport, hrange⟩
  · intro cmds s hvalid henc
    have hnone : NoBtEncSucceeds cmds s := fun before cmd after hsplit hdecode => by
      obtain ⟨u, hrun, hrange⟩ := henc before cmd after hsplit hdecode
      rwa [Host.Outcome.next.inj (hrun.symm.trans (runWords_eq_foldl before s))] at hrange
    have hend := foldl_wordState_not_valid hvalid hnone
    refine ⟨_, runWords_eq_foldl cmds s, hend, fun sel hsel => ?_⟩
    obtain ⟨k, hexec⟩ := exec_btRd_notReady ((payloadSelLegal_iff sel).mpr hsel) hend
    exact hexec

/-! #### The digits of an encoding -/

section
variable {ms : Nat}

theorem highDigit_subSecondByte (hms : ms ≤ 999) : highDigit (subSecondByte ms) = ms / 100 :=
  highDigit_ofNat_shiftLeft_or (by omega) (by omega)

theorem lowDigit_subSecondByte (hms : ms ≤ 999) : lowDigit (subSecondByte ms) = ms / 10 % 10 :=
  lowDigit_ofNat_shiftLeft_or (by omega) (by omega)

theorem isBcd_subSecondByte (hms : ms ≤ 999) : isBcd (subSecondByte ms) = true := by
  rw [isBcd_iff, highDigit_subSecondByte hms, lowDigit_subSecondByte hms]
  omega

end

/-- Every byte of an encoding is two decimal digits (R24 point 4, R70). -/
theorem isBcd_of_mem_encodeTime {t : TimeFields} (h : inRange t = true) : ∀ b ∈ outBytes (encodeTime t), isBcd b = true := by
  obtain ⟨hyear, hmonth, hday, hhour, hminute, hsecond, hmsec⟩ := (inRange_iff t).mp h
  simp only [outBytes, encodeTime, List.forall_mem_cons]
  exact ⟨isBcd_subSecondByte hmsec, isBcd_bcd2 hsecond, isBcd_bcd2 hminute, isBcd_bcd2 hhour, isBcd_bcd2 hday,
    isBcd_bcd2 hmonth, isBcd_bcd2 (by omega), isBcd_bcd2 (by omega), nofun⟩

/-- Settles O31: `exec_btEnc_inRange` with the eight bytes written out. -/
theorem btEncWritesTheEightBytes : Obligations.BtEncWritesTheEightBytes := fun _ => exec_btEnc_inRange

/-- Settles O32: `digits_bcd2` reads back the bytes 1 to 5, `highDigit_bcd2` and `lowDigit_bcd2` the year pair, and
`isBcd_of_mem_encodeTime` is the last part. -/
theorem btEncDigits : Obligations.BtEncDigits := by
  intro s h
  obtain ⟨hyear, hmonth, hday, hhour, hminute, hsecond, -⟩ := (inRange_iff _).mp h
  have hlow : s.bt.fields.year.toNat % 100 ≤ 99 := by omega
  have hhigh : s.bt.fields.year.toNat / 100 ≤ 99 := by omega
  exact ⟨_, exec_btEnc_inRange h, (highDigit_bcd2 hlow).trans (by omega), (lowDigit_bcd2 hlow).trans (by omega),
    (highDigit_bcd2 hhigh).trans (by omega), lowDigit_bcd2 hhigh, digits_bcd2 hsecond, digits_bcd2 hminute,
    digits_bcd2 hhour, digits_bcd2 hday, digits_bcd2 hmonth, isBcd_of_mem_encodeTime h⟩

/-- Settles O33: the digits of byte 0 are those of `subSecondByte` (decision D9). -/
theorem subSecondByteDigits : Obligations.SubSecondByteDigits := by
  intro s h
  obtain ⟨-, -, -, -, -, -, hmsec⟩ := (inRange_iff _).mp h
  exact ⟨_, exec_btEnc_inRange h, highDigit_subSecondByte hmsec, lowDigit_subSecondByte hmsec⟩

/-! #### The pseudo-commands `BT_TIME` and `BT_PAYLOAD` (R49, R78) -/

/-- The response of a command that returns no data (R8). -/
def okZero : Response := { status := .ok, data := 0 }

/-- `BT_SET` of each of these fields, to its value in `t`. -/
def setFields (t : TimeFields) (fs : List TimeField) : List Instr := fs.map fun f => .btSet (selOfField f) (readField t f)

/-- `BT_TIME` sets the seven fields in selector order and encodes (R49). -/
theorem btTime_eq (t : TimeFields) : btTime t = setFields t allFields ++ [.btEnc] := rfl

theorem foldl_setFields (t : TimeFields) (fs : List TimeField) (s : State) :
    ((setFields t fs).foldl afterCommand s).bt.fields = fs.foldl (fun u f => writeField u f (readField t f)) s.bt.fields ∧
    ((setFields t fs).foldl afterCommand s).responses = s.responses ++ List.replicate fs.length okZero := by
  induction fs generalizing s with
  | nil => exact ⟨rfl, (List.append_nil _).symm⟩
  | cons f fs ih =>
    obtain ⟨hfields, hresponses⟩ := ih (afterCommand s (.btSet (selOfField f) (readField t f)))
    have hset := afterCommand_of_exec (exec_btSet_selOfField f (readField t f) s)
    rw [hset] at hfields hresponses
    rw [setFields, List.map_cons, List.foldl_cons, hset]
    refine ⟨hfields, hresponses.trans ?_⟩
    rw [respond_responses, List.append_assoc]
    rfl

/-- Writing all seven fields leaves nothing of what they held. -/
theorem foldl_writeField_allFields (t u : TimeFields) :
    allFields.foldl (fun u f => writeField u f (readField t f)) u = t := rfl

/-- `BT_TIME` of fields in range, from any state (R49). -/
theorem foldl_btTime {t : TimeFields} (h : inRange t = true) (s : State) :
    ((btTime t).foldl afterCommand s).bt = { fields := t, out := encodeTime t, valid := true } ∧
    ((btTime t).foldl afterCommand s).responses = s.responses ++ List.replicate 8 okZero := by
  obtain ⟨hfields, hresponses⟩ := foldl_setFields t allFields s
  rw [foldl_writeField_allFields] at hfields
  have hrange : inRange ((setFields t allFields).foldl afterCommand s).bt.fields = true := by rw [hfields]; exact h
  rw [btTime_eq, List.foldl_append, List.foldl_cons, List.foldl_nil, afterCommand_of_exec (exec_btEnc_inRange hrange)]
  constructor
  · show storeEncoding _ = _
    rw [storeEncoding, hfields]
    rfl
  · rw [respond_responses, hresponses, List.append_assoc]
    rfl

theorem afterCommand_btRd_of_valid {sel : Nibble} {k : PayloadWord} (hsel : payloadWordOfSel sel = some k) {s : State}
    (hvalid : s.bt.valid = true) : afterCommand s (.btRd sel) = respond (payloadWord Config.params s.bt.out k) s := by
  rw [afterCommand_of_exec (exec_btRd_of_sel hsel s), readPayload, if_pos hvalid]

/-- The responses to `BT_PAYLOAD` while this encoding is valid (R49, R77). -/
def payloadResponses (out : BcdBytes) : List Response :=
  [PayloadWord.control, .outLow, .outHigh].map fun k => { status := .ok, data := payloadWord Config.params out k }

/-- `BT_PAYLOAD` of a valid encoding reads its three words and writes nothing (R77). -/
theorem foldl_btPayload {s : State} (hvalid : s.bt.valid = true) :
    btPayload.foldl afterCommand s = { s with responses := s.responses ++ payloadResponses s.bt.out } := by
  rw [btPayload, List.foldl_cons, List.foldl_cons, List.foldl_cons, List.foldl_nil,
    afterCommand_btRd_of_valid (k := .control) rfl hvalid,
    afterCommand_btRd_of_valid (k := .outLow) (s := respond _ s) rfl hvalid,
    afterCommand_btRd_of_valid (k := .outHigh) (s := respond _ (respond _ s)) rfl hvalid]
  simp [respond, payloadResponses]

/-- A response word of four bytes is stored as these bytes (R33). -/
theorem storedBytes_packWord (x0 x1 x2 x3 : Byte) : storedBytes (packWord x0 x1 x2 x3) = [x0, x1, x2, x3] := by
  have hskip {n start : Nat} (hi : BitVec n) (lo : Byte) (h : 8 ≤ start) :
      (hi ++ lo).extractLsb' start 8 = hi.extractLsb' (start - 8) 8 := BitVec.extractLsb'_append_eq_of_le h
  have h0 : (packWord x0 x1 x2 x3).extractLsb' 0 8 = x0 := BitVec.extractLsb'_append_eq_right
  have h1 : (packWord x0 x1 x2 x3).extractLsb' 8 8 = x1 :=
    (hskip (x3 ++ x2 ++ x1) x0 (by decide)).trans BitVec.extractLsb'_append_eq_right
  have h2 : (packWord x0 x1 x2 x3).extractLsb' 16 8 = x2 :=
    (hskip (x3 ++ x2 ++ x1) x0 (by decide)).trans ((hskip (x3 ++ x2) x1 (by decide)).trans
      BitVec.extractLsb'_append_eq_right)
  have h3 : (packWord x0 x1 x2 x3).extractLsb' 24 8 = x3 :=
    (hskip (x3 ++ x2 ++ x1) x0 (by decide)).trans ((hskip (x3 ++ x2) x1 (by decide)).trans
      BitVec.extractLsb'_append_eq_left)
  rw [storedBytes, h0, h1, h2, h3]

/-- The three responses, stored, are the time payload (R33, R78). -/
theorem flatMap_storedBytes_payloadResponses (out : BcdBytes) :
    (payloadResponses out).flatMap (fun r => storedBytes r.data) = timePayload Config.params out := by
  rw [payloadResponses, List.flatMap_map]
  simp only [payloadWord, storedBytes_packWord, List.flatMap_cons, List.flatMap_nil]
  rfl

/-- Settles O36: `foldl_btTime` encodes the fields, `foldl_btPayload` reads the payload, and stored it is the 12 bytes. -/
theorem timePayloadPseudoCommands : Obligations.TimePayloadPseudoCommands := by
  intro f s h
  obtain ⟨hbt, hresponses⟩ := foldl_btTime h s
  have hwf : AllWellFormed (btTime f ++ btPayload) :=
    List.forall_mem_append.mpr ⟨btTime_allWellFormed f, btPayload_allWellFormed⟩
  have hvalid : ((btTime f).foldl afterCommand s).bt.valid = true := by rw [hbt]
  refine ⟨_, payloadResponses (encodeTime f), runCommands_eq_foldl hwf s, ?_, ?_,
    List.forall_mem_map.mpr fun _ _ => rfl, flatMap_storedBytes_payloadResponses _⟩
  · rw [List.foldl_append, foldl_btPayload hvalid, hbt]
  · rw [List.foldl_append, foldl_btPayload hvalid, hresponses, hbt]
    rfl

end Sys2Proof.Proofs
end

section
/-! Draws among other words, the transport counter at its boundary, and draws of two counters (R87 to R90, R116). -/

namespace Sys2Proof.Proofs

open Sys2Proof.Machine

/-! #### The sequence of one counter among any words -/

theorem drawsOf_cons_draw {i : CounterId} {cmd : Word} (h : decode cmd = .ok (.scNext (selOfCounter i)))
    (cmds : List Word) : drawsOf i (cmd :: cmds) = drawsOf i cmds + 1 :=
  List.countP_cons_of_pos (by simp [h])

theorem drawsOf_cons_other {i : CounterId} {cmd : Word} (h : decode cmd ≠ .ok (.scNext (selOfCounter i)))
    (cmds : List Word) : drawsOf i (cmd :: cmds) = drawsOf i cmds := by
  refine List.countP_cons_of_neg ?_
  cases hdecode : decode cmd with
  | ok c => simpa [hdecode] using h
  | error e => simp

/-- A word that is not `SC_NEXT i` leaves counter `i` (R89). -/
theorem wordState_keeps_counter {i : CounterId} {cmd : Word} (h : decode cmd ≠ .ok (.scNext (selOfCounter i)))
    (s : State) : readCounter (wordState s cmd).sc i = readCounter s.sc i := by
  cases hdecode : decode cmd with
  | error e => rw [wordState_illegal s hdecode, raiseError_sc]
  | ok c =>
    rw [wordState_of_decode hdecode]
    rcases exec_counters_cases (exec_eq_afterCommand c s) with hsame | ⟨k, rfl, hadvance⟩
    · rw [hsame]
    · have hik : i ≠ k := fun hik => h (hik ▸ hdecode)
      rw [hadvance, advanceCounter_other _ s hik]

/-- After any words a counter holds its first value plus its draws, modulo `MOD[i]` (R90). -/
theorem foldl_wordState_readCounter {i : CounterId} (cmds : List Word) {s : State}
    (hle : readCounter s.sc i ≤ counterMax Config.params i) :
    readCounter (cmds.foldl wordState s).sc i =
      (readCounter s.sc i + drawsOf i cmds) % counterMod Config.params i := by
  induction cmds generalizing s with
  | nil => exact (Nat.mod_eq_of_lt ((le_counterMax_iff_lt_counterMod _ _ _).mp hle)).symm
  | cons cmd cmds ih =>
    rw [List.foldl_cons]
    by_cases hdraw : decode cmd = .ok (.scNext (selOfCounter i))
    · have hstate : wordState s cmd = advanceCounter Config.params i s :=
        (wordState_of_decode hdraw s).trans (afterCommand_of_exec (exec_scNext_selOfCounter i s))
      rw [hstate, ih (advanceCounter_le_counterMax _ i hle), advanceCounter_readCounter _ i s hle,
        drawsOf_cons_draw hdraw, Nat.mod_add_mod, Nat.add_right_comm, Nat.add_assoc]
    · have hkeep := wordState_keeps_counter hdraw s
      rw [ih (hkeep ▸ hle), hkeep, drawsOf_cons_other hdraw]

/-- Settles O40: `foldl_wordState_readCounter` from 0, and `SC_NEXT` returns what the counter holds. -/
theorem counterSequence : Obligations.CounterSequence := by
  intro i cmds s hzero
  have hend := foldl_wordState_readCounter cmds (hzero.trans_le (Nat.zero_le (counterMax Config.params i)))
  rw [hzero, Nat.zero_add] at hend
  obtain ⟨r, hresponses, -, hdata⟩ := advanceCounter_returns Config.params i (cmds.foldl wordState s)
  exact ⟨_, _, r, runWords_eq_foldl cmds s, hend, exec_scNext_selOfCounter i _, hresponses, hdata.trans hend⟩

/-! #### The transport counter -/

theorem counterMax_tfc_literal {p : Params} (h : p.tfcMod = .literal) : counterMax p .tfc = 16777214 := by
  rw [counterMax, counterMod, h]
  rfl

theorem counterMax_tfc_wholeRange {p : Params} (h : p.tfcMod = .wholeRange) : counterMax p .tfc = 0xFFFFFF := by
  rw [counterMax, counterMod, h]
  rfl

theorem advanceCounter_tfc (p : Params) (s : State) :
    (advanceCounter p .tfc s).sc.tfc = BitVec.ofNat 24 (nextCount p .tfc (readCounter s.sc .tfc)) := rfl

/-- Settles O39: the two cases of `nextCount`, and the maximum under each modulus. -/
theorem transportCounterBoundary : Obligations.TransportCounterBoundary := by
  intro p s hle
  refine ⟨fun hmax => ?_, fun hlt => ?_, ?_, fun hmod => ⟨fun hfull => ?_, counterMax_tfc_literal hmod⟩,
    counterMax_tfc_wholeRange⟩
  · rw [advanceCounter_tfc, nextCount, if_pos hmax]
    rfl
  · rw [advanceCounter_tfc, nextCount, if_neg hlt.ne, BitVec.ofNat_add, readCounter, BitVec.ofNat_toNat,
      BitVec.setWidth_eq]
    rfl
  · rw [advanceCounter, respond_responses, readCounter, BitVec.ofNat_toNat]
  · rw [counterMax_tfc_literal hmod, readCounter, hfull] at hle
    exact absurd hle (by decide)

/-! #### Two counters -/

/-- The counters are what their readers return (R17). -/
theorem scRegs_eq_of_readCounter {a b : ScRegs} (h : ∀ i, readCounter a i = readCounter b i) : a = b := by
  obtain ⟨_, _, _, _, _⟩ := a
  obtain ⟨_, _, _, _, _⟩ := b
  rw [ScRegs.mk.injEq]
  exact ⟨BitVec.eq_of_toNat_eq (h .outer), BitVec.eq_of_toNat_eq (h .iena), BitVec.eq_of_toNat_eq (h .seqcnt),
    BitVec.eq_of_toNat_eq (h .time), BitVec.eq_of_toNat_eq (h .tfc)⟩

theorem writeCounter_comm {i k : CounterId} (hik : i ≠ k) (c : ScRegs) (v w : Nat) :
    writeCounter (writeCounter c i v) k w = writeCounter (writeCounter c k w) i v := by
  refine scRegs_eq_of_readCounter fun j => ?_
  by_cases hjk : j = k
  · subst hjk
    rw [readCounter_writeCounter_same, readCounter_writeCounter_other _ _ hik.symm, readCounter_writeCounter_same]
  · rw [readCounter_writeCounter_other _ _ hjk]
    by_cases hji : j = i
    · subst hji
      rw [readCounter_writeCounter_same, readCounter_writeCounter_same]
    · rw [readCounter_writeCounter_other _ _ hji, readCounter_writeCounter_other _ _ hji,
        readCounter_writeCounter_other _ _ hjk]

/-- The response to an `SC_NEXT i` (R88): what the counter holds. -/
def drawResponse (c : ScRegs) (i : CounterId) : Response := { status := .ok, data := BitVec.ofNat 32 (readCounter c i) }

theorem advanceCounter_responses (p : Params) (i : CounterId) (s : State) :
    (advanceCounter p i s).responses = s.responses ++ [drawResponse s.sc i] := rfl

theorem drawResponse_advanceCounter_other (p : Params) {i k : CounterId} (hki : k ≠ i) (s : State) :
    drawResponse (advanceCounter p i s).sc k = drawResponse s.sc k := by
  rw [drawResponse, advanceCounter_other p s hki, drawResponse]

/-- Two draws of different counters answer what each held at the start (R116). -/
theorem advanceCounter_advanceCounter_responses (p : Params) {i k : CounterId} (hik : i ≠ k) (s : State) :
    (advanceCounter p k (advanceCounter p i s)).responses =
      s.responses ++ [drawResponse s.sc i, drawResponse s.sc k] := by
  rw [advanceCounter_responses, advanceCounter_responses, drawResponse_advanceCounter_other p hik.symm, List.append_assoc,
    List.singleton_append]

theorem advanceCounter_sc (p : Params) (i : CounterId) (s : State) :
    (advanceCounter p i s).sc = writeCounter s.sc i (nextCount p i (readCounter s.sc i)) := rfl

theorem advanceCounter_comm_sc (p : Params) {i k : CounterId} (hik : i ≠ k) (s : State) :
    (advanceCounter p k (advanceCounter p i s)).sc = (advanceCounter p i (advanceCounter p k s)).sc := by
  rw [advanceCounter_sc, advanceCounter_other p s hik.symm, advanceCounter_sc, writeCounter_comm hik, ← advanceCounter_sc,
    advanceCounter_sc p i (advanceCounter p k s), advanceCounter_other p s hik]

theorem runCommands_two_draws (i k : CounterId) (s : State) :
    runCommands [.scNext (selOfCounter i), .scNext (selOfCounter k)] s =
      .next (advanceCounter Config.params k (advanceCounter Config.params i s)) := by
  rw [runCommands, runWords_eq_foldl]
  simp only [List.map_cons, List.map_nil, List.foldl_cons, List.foldl_nil, wordState_scNext]

/-- Settles O48: the counters commute by `advanceCounter_comm_sc`, and each draw answers what its counter held at the
start. -/
theorem countersCommute : Obligations.CountersCommute := fun i k s hik =>
  ⟨_, _, _, _, runCommands_two_draws i k s, runCommands_two_draws k i s,
    ⟨rfl, rfl, advanceCounter_comm_sc _ hik.symm s⟩, advanceCounter_advanceCounter_responses _ hik s,
    advanceCounter_advanceCounter_responses _ hik.symm s⟩

end Sys2Proof.Proofs
end

section
/-! The canonical states (R24), unit by unit. -/

namespace Sys2Proof.Proofs

open Sys2Proof.Machine

/-- R24 points 1 and 2. -/
def CkCanonical (c : CkRegs) : Prop := (c.hv = false → c.hold = 0 ∧ c.acc = 0) ∧ (c.lv = false → c.low = 0)

/-- R24 points 3 and 4. -/
def BtCanonical (b : BtRegs) : Prop :=
  (b.valid = false → b.out = BcdBytes.zero) ∧ (b.valid = true → inRange b.fields = true ∧ b.out = encodeTime b.fields)

theorem canonical_iff (p : Params) (s : State) :
    Canonical p s ↔ CkCanonical s.ck ∧ BtCanonical s.bt ∧ ∀ i, readCounter s.sc i ≤ counterMax p i := by
  constructor
  · rintro ⟨hword, hbyte, hnone, hfresh, hcounters⟩
    exact ⟨⟨hword, hbyte⟩, ⟨hnone, hfresh⟩, hcounters⟩
  · rintro ⟨⟨hword, hbyte⟩, ⟨hnone, hfresh⟩, hcounters⟩
    exact ⟨hword, hbyte, hnone, hfresh, hcounters⟩

/-! #### ChecksumEngine -/

theorem ckCanonical_cleared : CkCanonical CkRegs.cleared := ⟨fun _ => ⟨rfl, rfl⟩, fun _ => rfl⟩

/-- A first byte leaves the word held and makes one byte pending; a second one holds a word and none pending (R60). -/
theorem ckCanonical_pushByte {c : CkRegs} (h : CkCanonical c) (x : Byte) : CkCanonical (pushByte x c) := by
  obtain ⟨hword, -⟩ := h
  cases hlv : c.lv with
  | false =>
    rw [pushByte_first x c hlv]
    exact ⟨hword, nofun⟩
  | true =>
    rw [pushByte_second x c hlv]
    exact ⟨nofun, fun _ => rfl⟩

theorem ckCanonical_pushBytes {c : CkRegs} (h : CkCanonical c) (b : List Byte) : CkCanonical (pushBytes c b) := by
  induction b generalizing c with
  | nil => exact h
  | cons x b ih => exact ih (ckCanonical_pushByte h x)

/-- A step clears CK or pushes some bytes, perhaps none (R59 to R62). -/
theorem step_ck_cases {s t : State} (h : step s = .next t) : t.ck = CkRegs.cleared ∨ ∃ b, t.ck = pushBytes s.ck b := by
  rcases step_cases s with ⟨-, hstep⟩ | ⟨_, _, -, hstep⟩ | ⟨_, _, i, -, -, hstep⟩ | ⟨_, _, _, -, -, hstep⟩
  · exact .inr ⟨[], Host.Outcome.next.inj (h.symm.trans hstep) ▸ rfl⟩
  · exact .inl (Host.Outcome.next.inj (h.symm.trans hstep) ▸ rfl)
  · obtain rfl := afterCommand_of_exec (hstep.symm.trans h)
    by_cases hclr : i = .ckClr
    · subst hclr
      exact .inl rfl
    · exact .inr ⟨_, afterCommand_ck hclr _⟩
  · exact .inr ⟨[], Host.Outcome.next.inj (h.symm.trans hstep) ▸ rfl⟩

/-! #### BcdTimeEncoder -/

theorem btCanonical_reset : BtCanonical BtRegs.reset := ⟨fun _ => rfl, nofun⟩

theorem btCanonical_storeField (f : TimeField) (v : Half) (b : BtRegs) : BtCanonical (storeField f v b) :=
  ⟨fun _ => rfl, nofun⟩

theorem btCanonical_storeEncoding {b : BtRegs} (h : inRange b.fields = true) : BtCanonical (storeEncoding b) :=
  ⟨nofun, fun _ => ⟨h, rfl⟩⟩

/-! #### The whole machine -/

/-- Settles O41, unit by unit. -/
theorem resetIsCanonical : Obligations.ResetIsCanonical := fun p =>
  (canonical_iff p _).mpr ⟨ckCanonical_cleared, btCanonical_reset, fun i =>
    (readCounter_reset i).trans_le (Nat.zero_le _)⟩

/-- Settles O42: each unit keeps its part of the canonical form in every case of what a step does to it (`step_ck_cases`,
`step_bt_cases`, `step_le_counterMax`). -/
theorem stepKeepsCanonical : Obligations.StepKeepsCanonical := by
  intro s t hcanonical hstep
  rw [canonical_iff] at hcanonical ⊢
  obtain ⟨hck, hbt, hsc⟩ := hcanonical
  refine ⟨?_, ?_, fun i => step_le_counterMax (hsc i) hstep⟩
  · rcases step_ck_cases hstep with h | ⟨b, h⟩ <;> rw [h]
    · exact ckCanonical_cleared
    · exact ckCanonical_pushBytes hck b
  · rcases step_bt_cases hstep with h | h | ⟨f, v, h⟩ | ⟨-, hrange, h⟩ <;> rw [h]
    · exact hbt
    · exact btCanonical_reset
    · exact btCanonical_storeField f v _
    · exact btCanonical_storeEncoding hrange

/-- Where the encoding is that of the fields, encoding again changes nothing (R24 point 4, R76). -/
theorem storeEncoding_of_fresh {b : BtRegs} (hvalid : b.valid = true) (hout : b.out = encodeTime b.fields) :
    storeEncoding b = b := by
  rw [storeEncoding, ← hout, validAfterEncode, ← hvalid]

/-- Settles O43: a valid encoding is that of fields in range, so its bytes are decimal (`isBcd_of_mem_encodeTime`) and
`BT_ENC` stores what is there (`storeEncoding_of_fresh`). -/
theorem validEncodingIsBcd : Obligations.ValidEncodingIsBcd := by
  intro s hcanonical hvalid
  obtain ⟨hrange, hout⟩ := hcanonical.freshEncoding hvalid
  constructor
  · rw [hout]
    exact isBcd_of_mem_encodeTime hrange
  · rw [exec_btEnc_inRange hrange, storeEncoding_of_fresh hvalid hout]
    rfl

end Sys2Proof.Proofs
end

section
/-! The access table (R18), repeatable commands (R37), and the consequences of a reset (R111). -/

namespace Sys2Proof.Proofs

open Sys2Proof.Machine

/-- `SC_NEXT` advances no counter but the selected one (R88, R89). -/
theorem scNext_keeps_other_counters {sel : Nibble} {k : CounterId} (hk : selOfCounter k ≠ sel) (s : State) :
    readCounter (afterCommand s (.scNext sel)).sc k = readCounter s.sc k := by
  rcases exec_counters_cases (exec_eq_afterCommand (.scNext sel) s) with hsame | ⟨i, hi, hadvance⟩
  · rw [hsame]
  · obtain rfl := Instr.scNext.inj hi
    have hne : k ≠ i := fun hki => hk (congrArg selOfCounter hki)
    rw [hadvance, advanceCounter_other _ s hne]

/-- Settles O44: `afterCommand_frame` for the other units, and one lemma for each command that writes less than its
unit. -/
theorem accessTable : Obligations.AccessTable := by
  intro i s
  refine ⟨_, exec_eq_afterCommand i s, afterCommand_port i s, fun h => afterCommand_frame h s,
    fun h => afterCommand_frame h s, fun h => afterCommand_frame h s, ?_, ?_, ?_, ?_, ?_⟩
  · rintro rfl
    rfl
  · rintro ⟨sel, rfl⟩
    exact btRd_keeps_bt sel s
  · rintro rfl
    exact btEnc_keeps_fields s
  · rintro sel v f rfl hf
    exact btSet_keeps_other_fields hf v s
  · rintro sel k rfl hk
    exact scNext_keeps_other_counters hk s

/-! #### Repeatable commands -/

/-- The command twice in a row gives one response twice, and the second one changes no register (R37). -/
def Repeats (i : Instr) (s : State) : Prop :=
  ∃ t u r, exec i s = .next t ∧ exec i t = .next u ∧ SameRegisters t u ∧
    t.responses = s.responses ++ [r] ∧ u.responses = s.responses ++ [r, r]

/-- A command that has left its unit as it was does and answers the same again: it reads that unit only. -/
theorem repeats_of_keeps_unit {i : Instr} {s : State} (h : SameUnit (unitOf i) (afterCommand s i) s) : Repeats i s := by
  obtain ⟨hunit, r, hsecond, hfirst⟩ := afterCommand_congr h
  refine ⟨_, _, r, exec_eq_afterCommand i s, exec_eq_afterCommand i _, ?_, hfirst, ?_⟩
  · rw [sameRegisters_iff_forall_sameUnit]
    intro u
    by_cases hu : unitOf i = u
    · exact hu ▸ hunit
    · exact afterCommand_frame hu _
  · rw [hsecond, hfirst, List.append_assoc]
    rfl

theorem repeats_ckClr (s : State) : Repeats .ckClr s :=
  ⟨_, _, _, exec_ckClr s, exec_ckClr _, ⟨rfl, rfl, rfl⟩, respond_responses _ _, List.append_assoc _ _ _⟩

theorem repeats_ckRead (s : State) : Repeats .ckRead s := repeats_of_keeps_unit rfl

theorem repeats_btRd (sel : Nibble) (s : State) : Repeats (.btRd sel) s := repeats_of_keeps_unit (btRd_keeps_bt sel s)

theorem writeField_writeField_same (t : TimeFields) (f : TimeField) (v w : Half) :
    writeField (writeField t f v) f w = writeField t f w := by cases f <;> rfl

theorem storeField_storeField_same (f : TimeField) (v : Half) (b : BtRegs) :
    storeField f v (storeField f v b) = storeField f v b := by
  rw [storeField, storeField, writeField_writeField_same]

theorem repeats_btSet (sel : Nibble) (v : Half) (s : State) : Repeats (.btSet sel v) s := by
  cases hsel : timeFieldOfSel sel with
  | none =>
    refine repeats_of_keeps_unit ?_
    rw [afterCommand_of_exec (exec_btSet_of_none hsel v s)]
    exact sameUnit_raiseError _ _ s
  | some f =>
    obtain rfl := timeFieldOfSel_some hsel
    exact ⟨_, _, _, exec_btSet_selOfField f v s, exec_btSet_selOfField f v _,
      ⟨rfl, storeField_storeField_same f v s.bt, rfl⟩, respond_responses _ _, List.append_assoc _ _ _⟩

/-- `BT_ENC` fails twice alike and writes nothing, or encodes the same fields twice. -/
theorem repeats_btEnc (s : State) : Repeats .btEnc s := by
  cases hrange : inRange s.bt.fields with
  | false =>
    obtain ⟨f, hexec⟩ := execBtEnc_outOfRange hrange
    refine repeats_of_keeps_unit ?_
    rw [afterCommand_of_exec ((exec_btEnc s).trans hexec)]
    exact sameUnit_raiseError _ _ s
  | true =>
    have hagain : inRange (storeEncoding s.bt).fields = true := hrange
    exact ⟨_, _, _, exec_btEnc_inRange hrange, exec_btEnc_inRange hagain, ⟨rfl, rfl, rfl⟩, respond_responses _ _,
      List.append_assoc _ _ _⟩

/-- Settles O47: one lemma for each of the five commands. -/
theorem repeatableCommands : Obligations.RepeatableCommands := by
  rintro i s (rfl | rfl | rfl | ⟨k, rfl⟩ | ⟨f, v, rfl⟩)
  · exact repeats_ckClr s
  · exact repeats_btEnc s
  · exact repeats_ckRead s
  · exact repeats_btRd k s
  · exact repeats_btSet f v s

/-! #### The consequences of a reset -/

theorem drawResponse_reset (i : CounterId) : drawResponse ScRegs.reset i = okZero := by
  rw [drawResponse, readCounter_reset]
  rfl

/-- Settles O49: the meaning of each command at the reset values. -/
theorem consequencesOfReset : Obligations.ConsequencesOfReset := by
  refine ⟨fun s => ⟨_, exec_ckClr s, rfl⟩, ⟨_, exec_ckRead _, rfl⟩, fun sel hsel => ?_, ?_, fun i => ?_⟩
  · obtain ⟨k, hexec⟩ := exec_btRd_notReady (s := State.reset) ((payloadSelLegal_iff sel).mpr hsel) rfl
    exact ⟨_, hexec, rfl⟩
  · have hrange : inRange State.reset.bt.fields = true := by decide
    exact ⟨_, exec_btEnc_inRange hrange, rfl, rfl, rfl⟩
  · have hzero : [drawResponse ScRegs.reset i] = [okZero] := congrArg ([·]) (drawResponse_reset i)
    exact ⟨_, exec_scNext_selOfCounter i _, hzero⟩

end Sys2Proof.Proofs
end
